-- ==== Sys2Proof/Word.lean ====
section
/-! DEFINITION. The widths of the words NXCORE handles (spec/30_encoding.md rule R70 and spec/20_memory.md rule R56), each a bit
vector with bit 0 the least significant bit (spec/00_scope.md rule R10). -/

namespace Sys2Proof

/-- Eight samples, as a `BYTE` command carries them (R52). -/
abbrev Byte := BitVec 8

/-- The format `CW`: what the host presents to run one command (R71). -/
abbrev CmdWord := BitVec 10

/-- The format `EW`: one sample with the run counter in front of it (R73). -/
abbrev EventWord := BitVec 5

/-- The format `NEXUS36`: one packet, the first received bit in bit 35 (R10, R76). -/
abbrev Packet := BitVec 36

/-- The format `MW`: one validated message (R85). -/
abbrev MsgWord := BitVec 31

/-- The format `PE`: the trace record of one emitted packet (R88). -/
abbrev PacketEvent := BitVec 72

/-- The reject vector `rej[3:0]` (R87). -/
abbrev RejVec := BitVec 4

end Sys2Proof
end

