-- ==== Sys2Proof/Config.lean ====
section
/-! DEFINITION. The parameters of NXCORE (spec/00_scope.md rule R8): the literals of the source as constants, and the two parameters
`VT_DEPTH` and `VT_CNTW` that R8 marks as arguments of a model, as a record that `Machine.State` carries and no step changes
(log entry 4). No free value stands here: the spec leaves no value of a next state open. -/

namespace Sys2Proof.Config

/-- `PKT_BITS`. -/
def pktBits : Nat := 36
/-- `SHORT_MIN`: least zero-run that appends a logical 0. -/
def shortMin : Nat := 1
/-- `SHORT_MAX`: greatest zero-run that appends a logical 0. -/
def shortMax : Nat := 4
/-- `LONG_MIN`: least zero-run that appends a logical 1. -/
def longMin : Nat := 5
/-- `LONG_MAX`: greatest zero-run that appends a logical 1. -/
def longMax : Nat := 10
/-- `SYNC_MIN`: least zero-run that is a frame boundary. -/
def syncMin : Nat := 11
/-- `CNT_SAT`: where the run counter saturates (D3). -/
def cntSat : Nat := 11
/-- `LEN_SAT`: where the buffer length saturates (D4). -/
def lenSat : Nat := 37
/-- `CONST0_VAL`. -/
def const0Val : BitVec 1 := 0
/-- `CONST1_VAL`. -/
def const1Val : BitVec 4 := 15
/-- `CH_RAW_MAX`: greatest legal `channel_raw`. -/
def chRawMax : Nat := 2
/-- `HUM_MAX`: greatest legal humidity. -/
def humMax : Nat := 100
/-- `TEMP_SCALE`: temperature is the raw count divided by 10. -/
def tempScale : Nat := 10

/-- The parameters R8 marks "argument", with the defaults of R8; `none` is the "unbounded" R8 allows. -/
structure Params where
  /-- `VT_DEPTH`: number of entries of the voter table. -/
  vtDepth : Option Nat := some 128
  /-- `VT_CNTW`: width in bits of each occurrence count. -/
  vtCntW : Option Nat := some 8
deriving DecidableEq, Repr

/-- "any value >= 1, or unbounded" (R8), for both parameters. -/
def Params.ok (p : Params) : Bool :=
  p.vtDepth.all (fun d => decide (1 ≤ d)) && p.vtCntW.all (fun w => decide (1 ≤ w))

end Sys2Proof.Config
end

