-- ==== Sys2Proof/Syntax.lean ====
section
/-! DEFINITION. The operations of NXCORE: one constructor per row of spec/opcode_table.json, in the table's order. A row's
don't-care bits and its selecting bits that are not fixed are the constructor's arguments, so that no bit of a word is dropped
(log entry 10). -/

namespace Sys2Proof

/-- One constructor per row of the opcode table (spec/30_encoding.md rule R94), at its four levels: the commands, matched on the
command word; the sample events, matched on the event word; the packet rows, matched on the packet word; and the micro-operations,
which no word selects by itself. -/
inductive Instr where
  /-- `NOP`, `CW = 00xxxxxxxx` (R191). -/
  | nop (data : Byte)
  /-- `BYTE d`, `CW = 01dddddddd` (R192). -/
  | byte (d : Byte)
  /-- `END`, `CW = 10xxxxxxxx` (R193). -/
  | endCmd (data : Byte)
  /-- The reserved code `RSVD`, `CW = 11xxxxxxxx` (R194). -/
  | rsvd (data : Byte)
  /-- `PD.ZERO`, `EW = 0cccc` (R102). -/
  | pdZero (c : BitVec 4)
  /-- `PD.NOISE`, `EW = 10000` (R103). -/
  | pdNoise
  /-- `PD.SHORT`, `EW = 10001`: a gap of 1 (R104). -/
  | pdShort1
  /-- `PD.SHORT`, `EW = 1001c`: a gap of 2 or 3 (R104). -/
  | pdShort2to3 (c : BitVec 1)
  /-- `PD.SHORT`, `EW = 10100`: a gap of 4 (R104). -/
  | pdShort4
  /-- `PD.LONG`, `EW = 10101`: a gap of 5 (R105). -/
  | pdLong5
  /-- `PD.LONG`, `EW = 1011c`: a gap of 6 or 7 (R105). -/
  | pdLong6to7 (c : BitVec 1)
  /-- `PD.LONG`, `EW = 1100c`: a gap of 8 or 9 (R105). -/
  | pdLong8to9 (c : BitVec 1)
  /-- `PD.LONG`, `EW = 11010`: a gap of 10 (R105). -/
  | pdLong10
  /-- `PD.SYNC`, `EW = 11011`: a gap of 11 or more (R106). -/
  | pdSync11
  /-- `PD.SYNC`, `EW = 111cc`: counter values 12 to 15, which never occur (R75, R106). -/
  | pdSync12to15 (c : BitVec 2)
  /-- `PP.PARSE`, the accepting row `iiiiiiiib0cctttttttttttt1111hhhhhhhh` with `cc` not `11` and `hhhhhhhh` at most 100 (R137). -/
  | ppParseAccept (id : BitVec 8) (batteryOk : BitVec 1) (channelRaw : BitVec 2) (temperatureRaw : BitVec 12) (humidity : BitVec 8)
  /-- `PP.PARSE`, the rejecting row: every other packet word (R137). -/
  | ppParseReject (p : Packet)
  /-- `PD.FLUSH`, a micro-operation of `END` (R107). -/
  | pdFlush
  /-- `PP.UEXT(P, p, w)`, a micro-operation of `PP.UNPACK` (R131). -/
  | ppUext (packet : Packet) (p w : Nat)
  /-- `PP.SEXT(P, p, w)`, a micro-operation of `PP.UNPACK` (R132). -/
  | ppSext (packet : Packet) (p w : Nat)
  /-- `PP.UNPACK(P)`, a micro-operation of `PP.PARSE` (R133). -/
  | ppUnpack (packet : Packet)
  /-- `PP.CHECK`, a micro-operation of `PP.PARSE`, on the four unpacked fields it reads (R136). -/
  | ppCheck (const0 : BitVec 1) (const1 : BitVec 4) (channelRaw : BitVec 2) (humidity : BitVec 8)
  /-- `PP.MKMSG`, a micro-operation of `PP.PARSE`, on the five unpacked fields it reads (R134). -/
  | ppMkmsg (id : BitVec 8) (batteryOk : BitVec 1) (channelRaw : BitVec 2) (temperatureRaw : BitVec 12) (humidity : BitVec 8)
  /-- `VT.TALLY(m)`, a micro-operation of `on_packet` (R163). -/
  | vtTally (m : MsgWord)
  /-- `VT.SELECT`, a micro-operation of `END` (R164). -/
  | vtSelect
  /-- `VT.CLEAR`, a micro-operation of `END` and of reset (R162). -/
  | vtClear
deriving DecidableEq, Repr

/-- The micro-operations: "the operations that no word selects by itself but that another operation invokes" (R94). -/
def Instr.isMicroOp : Instr → Bool
  | .nop _ => false
  | .byte _ => false
  | .endCmd _ => false
  | .rsvd _ => false
  | .pdZero _ => false
  | .pdNoise => false
  | .pdShort1 => false
  | .pdShort2to3 _ => false
  | .pdShort4 => false
  | .pdLong5 => false
  | .pdLong6to7 _ => false
  | .pdLong8to9 _ => false
  | .pdLong10 => false
  | .pdSync11 => false
  | .pdSync12to15 _ => false
  | .ppParseAccept _ _ _ _ _ => false
  | .ppParseReject _ => false
  | .pdFlush => true
  | .ppUext _ _ _ => true
  | .ppSext _ _ _ => true
  | .ppUnpack _ => true
  | .ppCheck _ _ _ _ => true
  | .ppMkmsg _ _ _ _ _ => true
  | .vtTally _ => true
  | .vtSelect => true
  | .vtClear => true

end Sys2Proof
end

