-- ==== Sys2Proof/WellFormed.lean ====
section
/-! DEFINITION. Which terms of `Instr` are operations of the spec: the conditions on operands that the table's patterns and the
rules state and a width cannot express. -/

namespace Sys2Proof

/-- The two constraints of the accepting `PP.PARSE` row, `cc != 11` and `uint(hhhhhhhh) <= 100` (R137, R94). -/
def legalFields (channelRaw : BitVec 2) (humidity : BitVec 8) : Bool :=
  decide (channelRaw.toNat ≤ Config.chRawMax) && decide (humidity.toNat ≤ Config.humMax)

/-- The accepted packet words: "those with `P[26] = 0`, `P[11:8] = 1111`, `P[25:24] != 11` and `uint(P[7:0]) <= 100`" (R90). -/
def acceptedPacket (p : Packet) : Bool :=
  decide (p.extractLsb' 26 1 = Config.const0Val) && decide (p.extractLsb' 8 4 = Config.const1Val) &&
    legalFields (p.extractLsb' 24 2) (p.extractLsb' 0 8)

/-- A valid message word: `MW[21:20] != 00` and `uint(MW[7:0]) <= 100` (R85). -/
def validMsgWord (m : MsgWord) : Bool :=
  decide (m.extractLsb' 20 2 ≠ 0) && decide ((m.extractLsb' 0 8).toNat ≤ Config.humMax)

/-- The operands each row and rule allow. -/
def Instr.wellFormed : Instr → Bool
  | .nop _ => true
  | .byte _ => true
  | .endCmd _ => true
  | .rsvd _ => true
  | .pdZero _ => true
  | .pdNoise => true
  | .pdShort1 => true
  | .pdShort2to3 _ => true
  | .pdShort4 => true
  | .pdLong5 => true
  | .pdLong6to7 _ => true
  | .pdLong8to9 _ => true
  | .pdLong10 => true
  | .pdSync11 => true
  | .pdSync12to15 _ => true
  | .ppParseAccept _ _ channelRaw _ humidity => legalFields channelRaw humidity
  | .ppParseReject p => !acceptedPacket p
  | .pdFlush => true
  | .ppUext _ p w => decide (1 ≤ w) && decide (p + w ≤ Config.pktBits)
  | .ppSext _ p w => decide (2 ≤ w) && decide (p + w ≤ Config.pktBits)
  | .ppUnpack _ => true
  | .ppCheck _ _ _ _ => true
  | .ppMkmsg _ _ channelRaw _ humidity => legalFields channelRaw humidity
  | .vtTally m => validMsgWord m
  | .vtSelect => true
  | .vtClear => true

end Sys2Proof
end

