-- ==== Sys2Proof/Decode.lean ====
section
/-! DEFINITION. The three decoders of NXCORE, total on the words of their formats, the reader of table words given as bytes, and
the encoder. The rows are the match and mask pairs of spec/30_encoding.md rules R72, R74, R77 and R94. -/

namespace Sys2Proof

/-- A word that selects an operation, in its format (R70). -/
inductive FormatWord where
  | cw (w : CmdWord)
  | ew (w : EventWord)
  | packet (p : Packet)
deriving DecidableEq, Repr

/-- Why bytes are no word of a format. -/
inductive DecodeError where
  /-- There is no format of that many bytes. -/
  | noSuchFormat (bytes : Nat)
  /-- A bit above the format's width is set. -/
  | strayBits
deriving DecidableEq, Repr

/-- Does `w` match a row of match `m` and mask `k`? -/
def rowMatches {n : Nat} (w m k : BitVec n) : Bool := w &&& k == m

/-- The command code selects the command; `data` is bits 7:0 (R71, R72). -/
def decodeCW (w : CmdWord) : Instr :=
  if rowMatches w 0x000#10 0x300#10 then .nop (w.extractLsb' 0 8)
  else if rowMatches w 0x100#10 0x300#10 then .byte (w.extractLsb' 0 8)
  else if rowMatches w 0x200#10 0x300#10 then .endCmd (w.extractLsb' 0 8)
  else .rsvd (w.extractLsb' 0 8)

/-- The event word selects the pulse-decoder operation (R74, R75). -/
def decodeEW (w : EventWord) : Instr :=
  if rowMatches w 0x00#5 0x10#5 then .pdZero (w.extractLsb' 0 4)
  else if rowMatches w 0x10#5 0x1F#5 then .pdNoise
  else if rowMatches w 0x11#5 0x1F#5 then .pdShort1
  else if rowMatches w 0x12#5 0x1E#5 then .pdShort2to3 (w.extractLsb' 0 1)
  else if rowMatches w 0x14#5 0x1F#5 then .pdShort4
  else if rowMatches w 0x15#5 0x1F#5 then .pdLong5
  else if rowMatches w 0x16#5 0x1E#5 then .pdLong6to7 (w.extractLsb' 0 1)
  else if rowMatches w 0x18#5 0x1E#5 then .pdLong8to9 (w.extractLsb' 0 1)
  else if rowMatches w 0x1A#5 0x1F#5 then .pdLong10
  else if rowMatches w 0x1B#5 0x1F#5 then .pdSync11
  else .pdSync12to15 (w.extractLsb' 0 2)

/-- The accepting row of `PP.PARSE`: match `0x000000F00`, mask `0x004000F00`, and its two constraints (R94, R137). -/
def acceptRow (p : Packet) : Bool :=
  rowMatches p 0x000000F00#36 0x004000F00#36 && legalFields (p.extractLsb' 24 2) (p.extractLsb' 0 8)

/-- The packet word selects the accepting or the rejecting row of `PP.PARSE` (R77, R137). -/
def decodePacket (p : Packet) : Instr :=
  if acceptRow p then
    .ppParseAccept (p.extractLsb' 28 8) (p.extractLsb' 27 1) (p.extractLsb' 24 2) (p.extractLsb' 12 12) (p.extractLsb' 0 8)
  else .ppParseReject p

/-- The operation a word selects. -/
def decodeWord : FormatWord → Instr
  | .cw w => decodeCW w
  | .ew w => decodeEW w
  | .packet p => decodePacket p

/-- A packet word from its seven fields, in the order of R78. -/
def packetOf (id : BitVec 8) (batteryOk const0 : BitVec 1) (channelRaw : BitVec 2) (temperatureRaw : BitVec 12)
    (const1 : BitVec 4) (humidity : BitVec 8) : Packet :=
  id ++ batteryOk ++ const0 ++ channelRaw ++ temperatureRaw ++ const1 ++ humidity

/-- The word of an operation; none for a micro-operation, which "no word selects by itself" (R94). -/
def encode : Instr → Option FormatWord
  | .nop data => some (.cw (0b00#2 ++ data))
  | .byte d => some (.cw (0b01#2 ++ d))
  | .endCmd data => some (.cw (0b10#2 ++ data))
  | .rsvd data => some (.cw (0b11#2 ++ data))
  | .pdZero c => some (.ew (0b0#1 ++ c))
  | .pdNoise => some (.ew 0b10000#5)
  | .pdShort1 => some (.ew 0b10001#5)
  | .pdShort2to3 c => some (.ew (0b1001#4 ++ c))
  | .pdShort4 => some (.ew 0b10100#5)
  | .pdLong5 => some (.ew 0b10101#5)
  | .pdLong6to7 c => some (.ew (0b1011#4 ++ c))
  | .pdLong8to9 c => some (.ew (0b1100#4 ++ c))
  | .pdLong10 => some (.ew 0b11010#5)
  | .pdSync11 => some (.ew 0b11011#5)
  | .pdSync12to15 c => some (.ew (0b111#3 ++ c))
  | .ppParseAccept id b cc t h => some (.packet (packetOf id b Config.const0Val cc t Config.const1Val h))
  | .ppParseReject p => some (.packet p)
  | .pdFlush => none
  | .ppUext _ _ _ => none
  | .ppSext _ _ _ => none
  | .ppUnpack _ => none
  | .ppCheck _ _ _ _ => none
  | .ppMkmsg _ _ _ _ _ => none
  | .vtTally _ => none
  | .vtSelect => none
  | .vtClear => none

/-- The lowest `n` bytes of a number, least significant first. -/
def bytesOf (w : Nat) : Nat → List Byte
  | 0 => []
  | n + 1 => BitVec.ofNat 8 w :: bytesOf (w / 256) n

/-- The number whose bytes, least significant first, are given. -/
def natOfBytes : List Byte → Nat
  | [] => 0
  | b :: bs => b.toNat + 256 * natOfBytes bs

/-- A word in whole bytes, least significant byte first (log entry 12): one byte for an event word, two for a command word, five
for a packet word. -/
def FormatWord.bytes : FormatWord → List Byte
  | .ew w => bytesOf w.toNat 1
  | .cw w => bytesOf w.toNat 2
  | .packet p => bytesOf p.toNat 5

/-- A word of `n` bits from a number, if no bit above is set. -/
def fitWord (n x : Nat) : Except DecodeError (BitVec n) :=
  if x < 2 ^ n then .ok (BitVec.ofNat n x) else .error .strayBits

/-- The word that bytes hold: the number of bytes tells the format (log entry 12). -/
def readWord (bs : List Byte) : Except DecodeError FormatWord :=
  match bs.length with
  | 1 => (fitWord 5 (natOfBytes bs)).map .ew
  | 2 => (fitWord 10 (natOfBytes bs)).map .cw
  | 5 => (fitWord 36 (natOfBytes bs)).map .packet
  | n => .error (.noSuchFormat n)

/-- Total on any bytes: the operation they select, or the name of why they select none. -/
def decodeBytes (bs : List Byte) : Except DecodeError Instr := (readWord bs).map decodeWord

/-- The bytes of a table word of `nbits` bits. -/
def tableBytes (nbits w : Nat) : List Byte := bytesOf w ((nbits + 7) / 8)

/-- The operation the decoder reads from a table word of `nbits` bits. The rows of the micro-operations carry the word of the
operation that invokes them (R94), so their word reads as that operation. -/
def decodeTableWord (nbits w : Nat) : Option Instr := (decodeBytes (tableBytes nbits w)).toOption

end Sys2Proof
end

