-- ==== Sys2Proof/Machine/State.lean ====
section
/-! DEFINITION. The state of NXCORE as plain data: the architectural state, exactly the components of spec/10_state.md rule R20, and
around it the model's own fields (the parameters, the inputs to come and the two outputs of a step; log entries 4 to 8). -/

namespace Sys2Proof.Machine

/-- One entry of the voter table: the pair (`VT_MSG[i]`, `VT_CNT[i]`) (R25). -/
structure Entry where
  msg : MsgWord
  /-- Occurrences of `msg` in this window, a number below `2^VT_CNTW` (log entry 3). -/
  cnt : Nat
deriving DecidableEq, Repr

/-- The complete architectural state (R20). -/
structure Arch where
  /-- `CNT`: zero samples since the last 1 sample, saturated at 11 (R21). -/
  cnt : BitVec 4
  /-- `BUF`: the bits appended since the last frame boundary, newest in bit 0 (R22). -/
  buf : Packet
  /-- `LEN`: number of bits appended since the last frame boundary, saturated at 37 (R22). -/
  len : BitVec 6
  /-- The entries in use of `VT_MSG` and `VT_CNT`, in first-seen order; `VT_N` is their number (R25, log entry 2). -/
  table : List Entry
  /-- `STATUS`: `RESULT_VALID` in bit 0, `F_CMD`, `F_VTFULL`, `F_VTSAT` in bits 1, 2, 3 (R28). -/
  status : BitVec 4
  /-- `RESULT` (R29). -/
  result : MsgWord
  /-- `RESULT_CNT` (R29, log entry 3). -/
  resultCnt : Nat
deriving DecidableEq, Repr

/-- `VT_N`: number of voter-table entries in use (R20, R25). -/
def Arch.vtN (a : Arch) : Nat := a.table.length

/-- The sticky fault flags of `STATUS` (R28, R216). -/
inductive FaultFlag where
  | fCmd
  | fVtFull
  | fVtSat
deriving DecidableEq, Repr

/-- The seven fields of a packet (R78), each with its bits; `temperatureRaw` is read as two's complement (R80). -/
structure Fields where
  id : BitVec 8
  batteryOk : BitVec 1
  const0 : BitVec 1
  channelRaw : BitVec 2
  temperatureRaw : BitVec 12
  const1 : BitVec 4
  humidity : BitVec 8
deriving DecidableEq, Repr

/-- The two outcomes of `PP.PARSE` (R130). -/
inductive ParseResult where
  | accept (m : MsgWord)
  | reject (rej : RejVec)
deriving DecidableEq, Repr

/-- The output registers a host may sample between commands (R190). -/
inductive Port where
  | status
  | result
  | resultCnt
deriving DecidableEq, Repr

/-- What the host presents next (log entries 5 and 6). -/
inductive Stimulus where
  /-- A command word on the port `CW` (R190). -/
  | command (w : CmdWord)
  /-- The reset input (R240). -/
  | reset
  /-- A sample of an output register (R190, R244). -/
  | read (p : Port)
  /-- Unit level: one sample, fed to PD alone (R100). -/
  | sample (s : Bool)
  /-- Unit level: one packet word, given to PP alone (R137). -/
  | packet (p : Packet)
deriving DecidableEq, Repr

/-- The value that the operation just run returned (log entry 8). -/
inductive Output where
  /-- The operation returns nothing, or `sample_step` returned `None` (R100). -/
  | none
  /-- `PD.SYNC` returned a packet (R106). -/
  | packet (p : Packet)
  /-- `PP.UEXT` (R131). -/
  | uint (n : Nat)
  /-- `PP.SEXT` (R132). -/
  | sint (z : Int)
  /-- `PP.UNPACK` (R133). -/
  | fields (f : Fields)
  /-- `PP.CHECK` (R136). -/
  | rej (r : RejVec)
  /-- `PP.MKMSG` (R134). -/
  | msg (m : MsgWord)
  /-- `PP.PARSE` (R137). -/
  | parsed (r : ParseResult)
  /-- `VT.SELECT` (R164). -/
  | selected (m : MsgWord) (c : Nat)
  /-- The host sampled `STATUS` (R28). -/
  | status (v : BitVec 4)
  /-- The host sampled `RESULT` (R29). -/
  | result (m : MsgWord)
  /-- The host sampled `RESULT_CNT` (R29). -/
  | resultCnt (c : Nat)
deriving DecidableEq, Repr

/-- The state of the model: the architectural state, and four fields that are the model's own and not the spec's. -/
structure State where
  /-- The architectural state of R20. -/
  arch : Arch
  /-- `VT_DEPTH` and `VT_CNTW` (R8, log entry 4); no step changes them. -/
  params : Config.Params
  /-- What the host has still to present, first one first (log entry 5). -/
  pending : List Stimulus
  /-- The event port `EV`: the events of the step just done (R190, R222, log entry 7). -/
  ev : List PacketEvent
  /-- The value the operation just run returned (log entry 8). -/
  out : Output
deriving DecidableEq, Repr

/-- Why the machine stops. -/
inductive Fault where
  /-- `EmptyVote`: raised by `VT.SELECT` applied with `VT_N = 0`, at unit level only (R167, R220). Safe: "a model must not return a
  default message here". -/
  | emptyVote
  /-- Raised by the host's read of `RESULT` or `RESULT_CNT` while `RESULT_VALID = 0` (R29, R245). Safe: the read gives no value. -/
  | resultNotValid
deriving DecidableEq, Repr

/-- Why an operation has no meaning. -/
inductive Refusal where
  /-- Raised by an arm of `exec` whose instruction has no meaning yet; no arm does. Safe. -/
  | notModelled (mnemonic : String)
  /-- Raised by `PP.UEXT`, `PP.SEXT`, `PP.MKMSG` and `VT.TALLY` on operands outside those their rules give (R131, R132, R134,
  R163); no word decodes to such a term and no operation invokes one (log entry 11). Safe: the spec gives no effect there. -/
  | operandOutsideRule (mnemonic : String)
deriving DecidableEq, Repr

/-- The architectural state after reset (R33): the values the spec states, and 0 for `RESULT` and `RESULT_CNT`, which the spec
leaves unspecified and unreadable (DESIGN CHOICE, log entry 1; unsafe for a claim that reads the fields past the port). -/
def Arch.reset : Arch :=
  { cnt := 0, buf := 0, len := 0, table := [], status := 0, result := 0, resultCnt := 0 }

/-- The machine right after reset (R33), with the default parameters of R8, nothing presented and no output. -/
def State.reset : State :=
  { arch := Arch.reset, params := {}, pending := [], ev := [], out := .none }

end Sys2Proof.Machine
end

