-- ==== Sys2Proof/Machine/Flags.lean ====
section
/-! DEFINITION. The bits of `STATUS` (spec/10_state.md rule R28): which they are, how a fault flag is raised and how `END` writes
`RESULT_VALID`. -/

namespace Sys2Proof.Machine

/-- The bit of `STATUS` a fault flag is (R28). -/
def FaultFlag.bit : FaultFlag → Nat
  | .fCmd => 1
  | .fVtFull => 2
  | .fVtSat => 3

/-- `RESULT_VALID`, `STATUS[0]` (R28). -/
def Arch.resultValid (a : Arch) : Bool := a.status.getLsbD 0

/-- Is the fault flag set? -/
def Arch.flag (a : Arch) (f : FaultFlag) : Bool := a.status.getLsbD f.bit

/-- `raise <Fault>`: the named sticky flag of `STATUS` is set; nothing else changes and the step completes (R11, R216). -/
def raise (f : FaultFlag) (a : Arch) : Arch := { a with status := a.status ||| (1#4 <<< f.bit) }

/-- `STATUS.RESULT_VALID <- v`; the fault flags stay as they are (R193). -/
def setResultValid (v : Bool) (a : Arch) : Arch := { a with status := (a.status &&& 0b1110#4) ||| (BitVec.ofBool v).setWidth 4 }

end Sys2Proof.Machine
end

