-- ==== Sys2Proof/Machine/Operands.lean ====
section
/-! DEFINITION. The forms in which NXCORE reads its words: samples of a byte, event words, fields of a packet, and the words the
parser builds (spec/30_encoding.md rules R73 to R88, spec/41_packet_parser.md rules R131 to R137). -/

namespace Sys2Proof.Machine

/-- The eight samples of a byte, most significant bit first (R52). -/
def samples (d : Byte) : List Bool :=
  [d.getLsbD 7, d.getLsbD 6, d.getLsbD 5, d.getLsbD 4, d.getLsbD 3, d.getLsbD 2, d.getLsbD 1, d.getLsbD 0]

/-- `EW[4:0] = {s, c[3:0]}` (R73). -/
def eventWord (s : Bool) (c : BitVec 4) : EventWord := BitVec.ofBool s ++ c

/-- The `w` bits of the packet from string position `p`: `P[35 - p : 36 - p - w]` (R10, R79). -/
def fieldBits (P : Packet) (p w : Nat) : BitVec w := P.extractLsb' (Config.pktBits - p - w) w

/-- `UEXT(P, p, w)` (R131). -/
def uext (P : Packet) (p w : Nat) : Nat := (fieldBits P p w).toNat

/-- `SEXT(P, p, w)` (R132). -/
def sext (P : Packet) (p w : Nat) : Int := (fieldBits P p w).toInt

/-- `UNPACK(P)`: all seven fields at once, at the positions of R133. -/
def unpack (P : Packet) : Fields :=
  { id := fieldBits P 0 8
    batteryOk := fieldBits P 8 1
    const0 := fieldBits P 9 1
    channelRaw := fieldBits P 10 2
    temperatureRaw := fieldBits P 12 12
    const1 := fieldBits P 24 4
    humidity := fieldBits P 28 8 }

/-- The four checks, all evaluated: `rej[3:0]` (R87, R136). -/
def check (const0 : BitVec 1) (const1 : BitVec 4) (channelRaw : BitVec 2) (humidity : BitVec 8) : RejVec :=
  BitVec.ofBool (decide (humidity.toNat > Config.humMax)) ++ BitVec.ofBool (decide (channelRaw.toNat > Config.chRawMax)) ++
    BitVec.ofBool (decide (const1 ≠ Config.const1Val)) ++ BitVec.ofBool (decide (const0 ≠ Config.const0Val))

/-- The message word: the packet's order without the constants, with the channel offset by one (R85, R134). -/
def mkMsg (id : BitVec 8) (batteryOk : BitVec 1) (channelRaw : BitVec 2) (temperatureRaw : BitVec 12) (humidity : BitVec 8) :
    MsgWord :=
  id ++ batteryOk ++ (channelRaw + 1) ++ temperatureRaw ++ humidity

/-- `PARSE(P)`: unpack, check, and build the message if all four checks pass (R137). -/
def parse (P : Packet) : ParseResult :=
  let f := unpack P
  let rej := check f.const0 f.const1 f.channelRaw f.humidity
  if rej = 0 then .accept (mkMsg f.id f.batteryOk f.channelRaw f.temperatureRaw f.humidity) else .reject rej

/-- `MW[30:23]` (R85). -/
def msgId (m : MsgWord) : BitVec 8 := m.extractLsb' 23 8
/-- `MW[22]` (R85). -/
def msgBattery (m : MsgWord) : BitVec 1 := m.extractLsb' 22 1
/-- `MW[21:20]` (R85). -/
def msgChannel (m : MsgWord) : BitVec 2 := m.extractLsb' 20 2
/-- `MW[19:8]` (R85). -/
def msgTemperature (m : MsgWord) : BitVec 12 := m.extractLsb' 8 12
/-- `MW[7:0]` (R85). -/
def msgHumidity (m : MsgWord) : BitVec 8 := m.extractLsb' 0 8

/-- `PE[71:0] = {ok, rej[3:0], MW[30:0], P[35:0]}` (R88). -/
def packetEvent (ok : Bool) (rej : RejVec) (m : MsgWord) (P : Packet) : PacketEvent := BitVec.ofBool ok ++ rej ++ m ++ P

/-- The event of an emitted packet, from what `PP.PARSE` answered (R88, R195). -/
def eventOf (P : Packet) : ParseResult → PacketEvent
  | .accept m => packetEvent true 0 m P
  | .reject rej => packetEvent false rej 0 P

/-- `PE[71]` (R88). -/
def evOk (e : PacketEvent) : Bool := e.getLsbD 71
/-- `PE[70:67]` (R88). -/
def evRej (e : PacketEvent) : RejVec := e.extractLsb' 67 4
/-- `PE[66:36]` (R88). -/
def evMsg (e : PacketEvent) : MsgWord := e.extractLsb' 36 31
/-- `PE[35:0]` (R88). -/
def evPacket (e : PacketEvent) : Packet := e.extractLsb' 0 36

end Sys2Proof.Machine
end

