-- ==== Sys2Proof/Machine/Ops.lean ====
section
/-! DEFINITION. The operations on the architectural state that the meanings share: those of the pulse decoder, of the voter, the
glue that chains the units, and what the host's inputs do. NXCORE takes no exception and returns from none (spec/60_exceptions.md
rules R223 and R225); the one operation in that place is `raise` of Machine/Flags.lean. -/

namespace Sys2Proof.Machine

/-! The pulse decoder (spec/40_pulse_decoder.md). -/

/-- `append(b)`: `BUF <- ({BUF, b})[35:0]; LEN <- min(LEN + 1, 37)` (R23). -/
def append (b : Bool) (a : Arch) : Arch :=
  { a with
    buf := (a.buf ++ BitVec.ofBool b).setWidth 36
    len := BitVec.ofNat 6 (min (a.len.toNat + 1) Config.lenSat) }

/-- `clear_buf`: `BUF <- 0; LEN <- 0` (R23). -/
def clearBuf (a : Arch) : Arch := { a with buf := 0, len := 0 }

/-- `PD.ZERO`: `CNT <- min(CNT + 1, 11)` (R102). -/
def pdZero (a : Arch) : Arch := { a with cnt := BitVec.ofNat 4 (min (a.cnt.toNat + 1) Config.cntSat) }

/-- `PD.NOISE`: `CNT <- 0` (R103). -/
def pdNoise (a : Arch) : Arch := { a with cnt := 0 }

/-- `PD.SHORT`: `append(0); CNT <- 0` (R104). -/
def pdShort (a : Arch) : Arch := { append false a with cnt := 0 }

/-- `PD.LONG`: `append(1); CNT <- 0` (R105). -/
def pdLong (a : Arch) : Arch := { append true a with cnt := 0 }

/-- What a frame boundary returns: the buffer if it holds exactly 36 bits (R106). -/
def syncPacket (a : Arch) : Option Packet := if a.len.toNat = Config.pktBits then some a.buf else none

/-- `PD.SYNC`'s writes: `clear_buf; CNT <- 0` (R106). -/
def pdSync (a : Arch) : Arch := { clearBuf a with cnt := 0 }

/-- `PD.FLUSH`: `clear_buf; CNT <- 0` (R107). -/
def pdFlush (a : Arch) : Arch := { clearBuf a with cnt := 0 }

/-- `sample_step(s)`: the writes and the packet returned, if any (R100, R101). -/
def sampleStep (s : Bool) (a : Arch) : Arch × Option Packet :=
  if s then
    if a.cnt.toNat < Config.shortMin then (pdNoise a, none)
    else if a.cnt.toNat ≤ Config.shortMax then (pdShort a, none)
    else if a.cnt.toNat ≤ Config.longMax then (pdLong a, none)
    else (pdSync a, syncPacket a)
  else (pdZero a, none)

/-! The voter (spec/42_voter.md). -/

/-- Is there room for a new entry when `n` are in use: `VT_N < VT_DEPTH` (R163). -/
def hasRoom (p : Config.Params) (n : Nat) : Bool := p.vtDepth.all (fun d => decide (n < d))

/-- Is a count at `CMAX = 2^VT_CNTW - 1` (R163)? -/
def atMax (p : Config.Params) (c : Nat) : Bool := p.vtCntW.any (fun w => decide (c = 2 ^ w - 1))

/-- The first entry whose message is `m`, counted once more unless its count is at `CMAX`, and whether it was; none if no entry
holds `m` (the loop of R163). -/
def countAgain (p : Config.Params) (m : MsgWord) : List Entry → Option (List Entry × Bool)
  | [] => none
  | e :: es =>
    if e.msg = m then
      if atMax p e.cnt then some (e :: es, true) else some ({ e with cnt := e.cnt + 1 } :: es, false)
    else (countAgain p m es).map (fun r => (e :: r.1, r.2))

/-- `VT.TALLY(m)` (R163). -/
def tally (p : Config.Params) (m : MsgWord) (a : Arch) : Arch :=
  match countAgain p m a.table with
  | some (_, true) => raise .fVtSat a
  | some (t, false) => { a with table := t }
  | none => if hasRoom p a.vtN then { a with table := a.table ++ [⟨m, 1⟩] } else raise .fVtFull a

/-- The later entry wins only with a strictly greater count (R164). -/
def better (best e : Entry) : Entry := if e.cnt > best.cnt then e else best

/-- `VT.SELECT`'s choice in index order; none for an empty table (R164). -/
def select : List Entry → Option Entry
  | [] => none
  | e :: es => some (es.foldl better e)

/-- `VT.CLEAR`: `VT_N <- 0` (R162). -/
def vtClear (a : Arch) : Arch := { a with table := [] }

/-! The glue (spec/43_commands.md). -/

/-- `on_packet(P)`'s writes: an accepted packet is tallied, a rejected one changes no state (R195). -/
def onPacket (p : Config.Params) (P : Packet) (a : Arch) : Arch :=
  match parse P with
  | .accept m => tally p m a
  | .reject _ => a

/-- One sample step with the parse and the tally inside it, adding to the events of the step (R6, R192). -/
def chainStep (p : Config.Params) (r : Arch × List PacketEvent) (s : Bool) : Arch × List PacketEvent :=
  match sampleStep s r.1 with
  | (a, none) => (a, r.2)
  | (a, some P) => (onPacket p P a, r.2 ++ [eventOf P (parse P)])

/-- A list of samples in order, from the architectural state `a` and no events. -/
def feedSamples (p : Config.Params) (ss : List Bool) (a : Arch) : Arch × List PacketEvent := ss.foldl (chainStep p) (a, [])

/-- `BYTE(d)`: eight sample steps, most significant bit first (R192). -/
def feedByte (p : Config.Params) (d : Byte) (a : Arch) : Arch × List PacketEvent := feedSamples p (samples d) a

/-- The publishing of `END`: `RESULT`, `RESULT_CNT` and `RESULT_VALID` from the entry selected; with none selected only
`RESULT_VALID` is written (R193, R29, log entry 9). -/
def publish : Option Entry → Arch → Arch
  | some e, a => setResultValid true { a with result := e.msg, resultCnt := e.cnt }
  | none, a => setResultValid false a

/-- `END`: flush, vote, publish, clear (R193). -/
def endWindow (a : Arch) : Arch := vtClear (publish (select a.table) (pdFlush a))

/-! The step around an operation. -/

/-- The next state of an operation that leaves the architectural state `a`, the events `ev` and the returned value `o`; the events
of the step before are gone, since `EV = []` at the start of every step (R11). -/
def State.done (s : State) (a : Arch) (ev : List PacketEvent) (o : Output) : State := { s with arch := a, ev := ev, out := o }

/-- What a packet-returning operation returned. -/
def returned : Option Packet → Output
  | some P => .packet P
  | none => .none

/-- The transition of the reset input: the architectural state of R33; no event; the parameters stay, and so does what the host is
still to present (R240, log entry 13). -/
def State.afterReset (s : State) : State := { State.reset with params := s.params, pending := s.pending }

/-- A host's read of an output register: no side effect (R56); a fault for `RESULT` and `RESULT_CNT` while `RESULT_VALID = 0` (R29). -/
def readPort (p : Port) (a : Arch) : Except Fault Output :=
  match p with
  | .status => .ok (.status a.status)
  | .result => if a.resultValid then .ok (.result a.result) else .error .resultNotValid
  | .resultCnt => if a.resultValid then .ok (.resultCnt a.resultCnt) else .error .resultNotValid

/-- What the next step is to do: run an operation, or what the host does beside commands. -/
inductive Fetched where
  | instr (i : Instr) (s : State)
  | host (r : Host.Outcome State Fault Refusal)

/-- Take the first input presented. A command word is decoded (R72); a sample is put before `CNT` as an event word and decoded (R73,
R74); a packet word is decoded (R77); with nothing presented the block is idle and keeps all its state (R227, log entry 5). -/
def fetch (s : State) : Fetched :=
  match s.pending with
  | [] => .host (.next s)
  | .command w :: rest => .instr (decodeCW w) { s with pending := rest }
  | .sample b :: rest => .instr (decodeEW (eventWord b s.arch.cnt)) { s with pending := rest }
  | .packet P :: rest => .instr (decodePacket P) { s with pending := rest }
  | .reset :: rest => .host (.next { s with pending := rest }.afterReset)
  | .read p :: rest =>
    match readPort p s.arch with
    | .ok o => .host (.next { s with pending := rest, out := o })
    | .error f => .host (.fault f)

/-- Present a word as the next input. A command word or a packet word is put in front; an event word is `{s, CNT}`, so its lower four
bits are written to `CNT` and its upper bit is put in front as a sample (R73). -/
def State.present (s : State) : FormatWord → State
  | .cw w => { s with pending := .command w :: s.pending }
  | .ew w => { s with arch := { s.arch with cnt := w.extractLsb' 0 4 }, pending := .sample (w.getLsbD 4) :: s.pending }
  | .packet P => { s with pending := .packet P :: s.pending }

/-- Present a table word of `nbits` bits as the next input; a number that is no word of a format is not presented. -/
def State.presentTableWord (s : State) (nbits w : Nat) : State :=
  match readWord (tableBytes nbits w) with
  | .ok x => s.present x
  | .error _ => s

end Sys2Proof.Machine
end

