-- ==== Sys2Proof/Machine/Commands.lean ====
section
/-! DEFINITION. The four host commands (spec/43_commands.md rules R191 to R194). -/

namespace Sys2Proof.Machine

/-- `NOP`: no state changes; `EV = []` (R191). -/
def execNop (_data : Byte) (s : State) : Host.Outcome State Fault Refusal := .next (s.done s.arch [] .none)

/-- `BYTE d`: feed eight samples (R192). -/
def execByte (d : Byte) (s : State) : Host.Outcome State Fault Refusal :=
  .next (s.done (feedByte s.params d s.arch).1 (feedByte s.params d s.arch).2 .none)

/-- `END`: close the window, vote, publish, clear; `EV = []` (R193). -/
def execEnd (_data : Byte) (s : State) : Host.Outcome State Fault Refusal := .next (s.done (endWindow s.arch) [] .none)

/-- The reserved code: `raise F_CMD`; nothing else changes; `EV = []` (R194). -/
def execRsvd (_data : Byte) (s : State) : Host.Outcome State Fault Refusal := .next (s.done (raise .fCmd s.arch) [] .none)

end Sys2Proof.Machine
end

