-- ==== Sys2Proof/Machine/PacketParser.lean ====
section
/-! DEFINITION. The operations of the packet parser, one meaning per row of the table (spec/41_packet_parser.md rules R131 to R137).
The parser has no state (spec/10_state.md rule R34): a meaning writes the value it returns to the output and nothing else. -/

namespace Sys2Proof.Machine

/-- `PP.PARSE` of the packet with these fields and the two constants the accepting row fixes (R137). -/
def execPpParseAccept (id : BitVec 8) (batteryOk : BitVec 1) (channelRaw : BitVec 2) (temperatureRaw : BitVec 12)
    (humidity : BitVec 8) (s : State) : Host.Outcome State Fault Refusal :=
  .next (s.done s.arch []
    (.parsed (parse (packetOf id batteryOk Config.const0Val channelRaw temperatureRaw Config.const1Val humidity))))

/-- `PP.PARSE` of a packet word of the rejecting row (R137). -/
def execPpParseReject (P : Packet) (s : State) : Host.Outcome State Fault Refusal :=
  .next (s.done s.arch [] (.parsed (parse P)))

/-- `PP.UEXT(P, p, w)`, for `0 <= p`, `1 <= w`, `p + w <= 36` (R131). -/
def execPpUext (P : Packet) (p w : Nat) (s : State) : Host.Outcome State Fault Refusal :=
  if 1 ≤ w ∧ p + w ≤ Config.pktBits then .next (s.done s.arch [] (.uint (uext P p w)))
  else .refused (.operandOutsideRule "PP.UEXT")

/-- `PP.SEXT(P, p, w)`, as `PP.UEXT`, with `w >= 2` (R132). -/
def execPpSext (P : Packet) (p w : Nat) (s : State) : Host.Outcome State Fault Refusal :=
  if 2 ≤ w ∧ p + w ≤ Config.pktBits then .next (s.done s.arch [] (.sint (sext P p w)))
  else .refused (.operandOutsideRule "PP.SEXT")

/-- `PP.UNPACK(P)` (R133). -/
def execPpUnpack (P : Packet) (s : State) : Host.Outcome State Fault Refusal := .next (s.done s.arch [] (.fields (unpack P)))

/-- `PP.CHECK` (R136). -/
def execPpCheck (const0 : BitVec 1) (const1 : BitVec 4) (channelRaw : BitVec 2) (humidity : BitVec 8) (s : State) :
    Host.Outcome State Fault Refusal :=
  .next (s.done s.arch [] (.rej (check const0 const1 channelRaw humidity)))

/-- `PP.MKMSG`: "applied only after `PP.CHECK` has passed" (R134). -/
def execPpMkmsg (id : BitVec 8) (batteryOk : BitVec 1) (channelRaw : BitVec 2) (temperatureRaw : BitVec 12) (humidity : BitVec 8)
    (s : State) : Host.Outcome State Fault Refusal :=
  if legalFields channelRaw humidity then
    .next (s.done s.arch [] (.msg (mkMsg id batteryOk channelRaw temperatureRaw humidity)))
  else .refused (.operandOutsideRule "PP.MKMSG")

end Sys2Proof.Machine
end

