-- ==== Sys2Proof/Machine/PulseDecoder.lean ====
section
/-! DEFINITION. The operations of the pulse decoder, one meaning per row of the table (spec/40_pulse_decoder.md rules R102 to R107).
The bits `c` of an event word only select the row: what an operation reads is the register `CNT` (log entry 10). -/

namespace Sys2Proof.Machine

/-- `PD.ZERO` (R102). -/
def execPdZero (_c : BitVec 4) (s : State) : Host.Outcome State Fault Refusal := .next (s.done (pdZero s.arch) [] .none)

/-- `PD.NOISE` (R103). -/
def execPdNoise (s : State) : Host.Outcome State Fault Refusal := .next (s.done (pdNoise s.arch) [] .none)

/-- `PD.SHORT`, row `10001` (R104). -/
def execPdShort1 (s : State) : Host.Outcome State Fault Refusal := .next (s.done (pdShort s.arch) [] .none)

/-- `PD.SHORT`, row `1001c` (R104). -/
def execPdShort2to3 (_c : BitVec 1) (s : State) : Host.Outcome State Fault Refusal := .next (s.done (pdShort s.arch) [] .none)

/-- `PD.SHORT`, row `10100` (R104). -/
def execPdShort4 (s : State) : Host.Outcome State Fault Refusal := .next (s.done (pdShort s.arch) [] .none)

/-- `PD.LONG`, row `10101` (R105). -/
def execPdLong5 (s : State) : Host.Outcome State Fault Refusal := .next (s.done (pdLong s.arch) [] .none)

/-- `PD.LONG`, row `1011c` (R105). -/
def execPdLong6to7 (_c : BitVec 1) (s : State) : Host.Outcome State Fault Refusal := .next (s.done (pdLong s.arch) [] .none)

/-- `PD.LONG`, row `1100c` (R105). -/
def execPdLong8to9 (_c : BitVec 1) (s : State) : Host.Outcome State Fault Refusal := .next (s.done (pdLong s.arch) [] .none)

/-- `PD.LONG`, row `11010` (R105). -/
def execPdLong10 (s : State) : Host.Outcome State Fault Refusal := .next (s.done (pdLong s.arch) [] .none)

/-- `PD.SYNC`, row `11011`: the packet, if one is emitted, is the value returned (R106). -/
def execPdSync11 (s : State) : Host.Outcome State Fault Refusal :=
  .next (s.done (pdSync s.arch) [] (returned (syncPacket s.arch)))

/-- `PD.SYNC`, row `111cc` (R75, R106). -/
def execPdSync12to15 (_c : BitVec 2) (s : State) : Host.Outcome State Fault Refusal :=
  .next (s.done (pdSync s.arch) [] (returned (syncPacket s.arch)))

/-- `PD.FLUSH` (R107). -/
def execPdFlush (s : State) : Host.Outcome State Fault Refusal := .next (s.done (pdFlush s.arch) [] .none)

end Sys2Proof.Machine
end

