-- ==== Sys2Proof/Machine/Voter.lean ====
section
/-! DEFINITION. The operations of the voter, one meaning per row of the table (spec/42_voter.md rules R162 to R164). -/

namespace Sys2Proof.Machine

/-- `VT.TALLY(m)`, for `m` a valid message word (R163). -/
def execVtTally (m : MsgWord) (s : State) : Host.Outcome State Fault Refusal :=
  if validMsgWord m then .next (s.done (tally s.params m s.arch) [] .none)
  else .refused (.operandOutsideRule "VT.TALLY")

/-- `VT.SELECT`: the selected pair, and the fault `EmptyVote` when `VT_N = 0` (R164, R167). -/
def execVtSelect (s : State) : Host.Outcome State Fault Refusal :=
  match select s.arch.table with
  | some e => .next (s.done s.arch [] (.selected e.msg e.cnt))
  | none => .fault .emptyVote

/-- `VT.CLEAR` (R162). -/
def execVtClear (s : State) : Host.Outcome State Fault Refusal := .next (s.done (vtClear s.arch) [] .none)

end Sys2Proof.Machine
end

