-- ==== Sys2Proof/Machine/Dispatch.lean ====
section
/-! DEFINITION. The one match on the operations: one arm per constructor of Instr, each a direct call of its meaning. -/

namespace Sys2Proof.Machine

def exec (i : Instr) (s : State) : Host.Outcome State Fault Refusal :=
  match i with
  | .nop data => Sys2Proof.Machine.execNop data s
  | .byte d => Sys2Proof.Machine.execByte d s
  | .endCmd data => Sys2Proof.Machine.execEnd data s
  | .rsvd data => Sys2Proof.Machine.execRsvd data s
  | .pdZero c => Sys2Proof.Machine.execPdZero c s
  | .pdNoise => Sys2Proof.Machine.execPdNoise s
  | .pdShort1 => Sys2Proof.Machine.execPdShort1 s
  | .pdShort2to3 c => Sys2Proof.Machine.execPdShort2to3 c s
  | .pdShort4 => Sys2Proof.Machine.execPdShort4 s
  | .pdLong5 => Sys2Proof.Machine.execPdLong5 s
  | .pdLong6to7 c => Sys2Proof.Machine.execPdLong6to7 c s
  | .pdLong8to9 c => Sys2Proof.Machine.execPdLong8to9 c s
  | .pdLong10 => Sys2Proof.Machine.execPdLong10 s
  | .pdSync11 => Sys2Proof.Machine.execPdSync11 s
  | .pdSync12to15 c => Sys2Proof.Machine.execPdSync12to15 c s
  | .ppParseAccept id b cc t h => Sys2Proof.Machine.execPpParseAccept id b cc t h s
  | .ppParseReject p => Sys2Proof.Machine.execPpParseReject p s
  | .pdFlush => Sys2Proof.Machine.execPdFlush s
  | .ppUext packet p w => Sys2Proof.Machine.execPpUext packet p w s
  | .ppSext packet p w => Sys2Proof.Machine.execPpSext packet p w s
  | .ppUnpack packet => Sys2Proof.Machine.execPpUnpack packet s
  | .ppCheck c0 c1 cc h => Sys2Proof.Machine.execPpCheck c0 c1 cc h s
  | .ppMkmsg id b cc t h => Sys2Proof.Machine.execPpMkmsg id b cc t h s
  | .vtTally m => Sys2Proof.Machine.execVtTally m s
  | .vtSelect => Sys2Proof.Machine.execVtSelect s
  | .vtClear => Sys2Proof.Machine.execVtClear s

end Sys2Proof.Machine
end

