-- ==== Sys2Proof/Machine/Step.lean ====
section
/-! DEFINITION. One step: the first input the host presents, run to completion (spec/00_scope.md rule R6, spec/43_commands.md rule
R190). -/

namespace Sys2Proof.Machine

/-- One step of the machine. -/
def step (s : State) : Host.Outcome State Fault Refusal :=
  match fetch s with
  | .instr i s' => exec i s'
  | .host r => r

/-- `s` with the table word `w` of `nbits` bits presented as its next input (log entry 5). -/
def State.withFetchWord (s : State) (nbits w : Nat) : State := s.presentTableWord nbits w

end Sys2Proof.Machine
end

