-- ==== Sys2Proof/Machine/Reference.lean ====
section
/-! DEFINITION. The reference functions of the spec, over unbounded sequences: `decode_ref` (R108), `parse_ref` (R138), `vote_ref`
(R165) and `window_ref` (R197), with the message they speak of (R84), and the written notation for waveforms (R93). A packet string
is a list of Bool, `true` for the character `1`, the first received first (log entry 16). -/

namespace Sys2Proof.Machine.Reference

/-- What `decode_ref` holds between samples: `count`, `bits` and `out` (R108). -/
structure Scan where
  count : Nat
  bits : List Bool
  out : List (List Bool)
deriving DecidableEq, Repr

/-- Before the first sample: `out = []; count = 0; bits = ""` (R108, D5). -/
def Scan.start : Scan := { count := 0, bits := [], out := [] }

/-- The body of `decode_ref`'s inner loop for the sample `s` (R108). -/
def scanSample (r : Scan) (s : Bool) : Scan :=
  if s then
    if r.count > 10 then { count := 0, bits := [], out := if r.bits.length = 36 then r.out ++ [r.bits] else r.out }
    else if r.count ≥ 5 then { r with count := 0, bits := r.bits ++ [true] }
    else if r.count ≥ 1 then { r with count := 0, bits := r.bits ++ [false] }
    else { r with count := 0 }
  else { r with count := r.count + 1 }

/-- `decode_ref`'s loop over samples. -/
def scan (ss : List Bool) : Scan := ss.foldl scanSample Scan.start

/-- The samples of bytes: for each byte in order, bits 7 down to 0 (R52, R108). -/
def windowSamples (bytes : List Byte) : List Bool :=
  bytes.flatMap (fun d => [7, 6, 5, 4, 3, 2, 1, 0].map (fun k => d.getLsbD k))

/-- `decode_ref` (R108). -/
def decodeRef (bytes : List Byte) : List (List Bool) := (scan (windowSamples bytes)).out

/-- `int`: a binary numeral, leftmost digit most significant (R138). -/
def numeral (s : List Bool) : Nat := s.foldl (fun n b => 2 * n + b.toNat) 0

/-- `s[p +: w]` (R10). -/
def slice (s : List Bool) (p w : Nat) : List Bool := (s.drop p).take w

/-- The vector of a packet string of 36 characters: `P[35 - i] = s[i]` (R10; for another length log entry 19). -/
def vectorOf (s : List Bool) : Packet := BitVec.ofNat 36 (numeral s)

/-- The string of a packet vector: `s[i] = P[35 - i]` (R10). -/
def stringOf (P : Packet) : List Bool := (List.range 36).map (fun i => P.getLsbD (35 - i))

/-- A `Message`: the five fields, the temperature an exact rational number of degrees Celsius (R82, R84). -/
structure Message where
  id : Nat
  channel : Nat
  temperature : ℚ
  humidity : Nat
  isBatteryOk : Bool
deriving DecidableEq, Repr

/-- `parse_ref`; none for the ValidationError (R138). The rule speaks of a string of 36 characters, and for any other length nothing
may be assumed (spec/91_not_in_source.md N21): that this function then reads the slices as far as they reach and ignores what follows
position 35 is a DESIGN CHOICE (log entry 19), which no run reaches. -/
def parseRef (s : List Bool) : Option Message :=
  let id := numeral (slice s 0 8)
  let batt := numeral (slice s 8 1)
  let c0 := numeral (slice s 9 1)
  let ch := numeral (slice s 10 2)
  let t := numeral (slice s 12 12)
  let t' : Int := if t ≥ 2048 then (t : Int) - 4096 else t
  let c1 := numeral (slice s 24 4)
  let h := numeral (slice s 28 8)
  if (ch = 0 ∨ ch = 1 ∨ ch = 2) ∧ c0 = 0 ∧ c1 = 15 ∧ h ≤ 100 then
    some { id := id, channel := ch + 1, temperature := (t' : ℚ) / 10, humidity := h, isBatteryOk := batt == 1 }
  else none

/-- The temperature a message word denotes: `sint_12(MW[19:8]) / 10` degrees Celsius (R135). -/
def denotedTemperature (m : MsgWord) : ℚ := ((msgTemperature m).toInt : ℚ) / Config.tempScale

/-- The message a message word denotes (R85, R135). -/
def denote (m : MsgWord) : Message :=
  { id := (msgId m).toNat
    channel := (msgChannel m).toNat
    temperature := denotedTemperature m
    humidity := (msgHumidity m).toNat
    isBatteryOk := msgBattery m == 1 }

/-- `vote_ref`'s table after one more message (R165). -/
def countMessage {α : Type} [DecidableEq α] (table : List (α × Nat)) (m : α) : List (α × Nat) :=
  if table.any (fun e => e.1 = m) then table.map (fun e => if e.1 = m then (e.1, e.2 + 1) else e) else table ++ [(m, 1)]

/-- `vote_ref`'s table: (message, count) in first-seen order (R165). -/
def voteTable {α : Type} [DecidableEq α] (ms : List α) : List (α × Nat) := ms.foldl countMessage []

/-- `vote_ref`'s choice in its table: the first entry, replaced by each later one with a greater count (R165). -/
def bestOf {α : Type} : List (α × Nat) → Option (α × Nat)
  | [] => none
  | e :: es => some (es.foldl (fun best x => if x.2 > best.2 then x else best) e)

/-- `vote_ref` with the winning count; none where the input is empty (R165, R167). -/
def voteRef {α : Type} [DecidableEq α] (ms : List α) : Option (α × Nat) := bestOf (voteTable ms)

/-- The messages of a window: the packets that parse, in order (R197). -/
def windowMessages (bytes : List Byte) : List Message := (decodeRef bytes).filterMap parseRef

/-- `window_ref` (R197). -/
def windowRef (bytes : List Byte) : Option (Message × Nat) := voteRef (windowMessages bytes)

/-- `FRAME(bits, g0, g1, gs, lead)`: an optional leading pulse, one gap and pulse per packet bit, then the sync gap and its closing
pulse (R93). -/
def frame (bits : List Bool) (g0 g1 gs : Nat) (lead : Bool) : List Bool :=
  (if lead then [true] else []) ++ bits.flatMap (fun b => List.replicate (if b then g1 else g0) false ++ [true]) ++
    List.replicate gs false ++ [true]

/-- The byte whose eight samples, most significant bit first, are given; samples that are missing on the right are 0 (R93). -/
def byteOfSamples (ss : List Bool) : Byte :=
  BitVec.ofNat 8 (numeral ((ss ++ List.replicate 8 false).take 8))

/-- `n` groups of eight samples as bytes. -/
def waveBytes : Nat → List Bool → List Byte
  | 0, _ => []
  | n + 1, ss => byteOfSamples ss :: waveBytes n (ss.drop 8)

/-- `WAVE`: the samples padded on the right with 0 to a multiple of 8 and cut into bytes (R93). -/
def wave (ss : List Bool) : List Byte := waveBytes ((ss.length + 7) / 8) ss

/-- `BYTES`: one `BYTE` command word per byte, in order (R92, R93). -/
def bytesCommands (bytes : List Byte) : List CmdWord := bytes.map (fun d => 0b01#2 ++ d)

end Sys2Proof.Machine.Reference
end

