-- ==== Sys2Proof/Safety.lean ====
section
/-! DEFINITION. What counts as a good state and a clean run, in the terms the statements use: the invariants of the spec
(spec/10_state.md rules R24, R26, R29; spec/30_encoding.md rule R88), and states with no fault flag set (spec/60_exceptions.md
rule R216, spec/70_reset_and_hazards.md rule R246). -/

namespace Sys2Proof.Machine

/-- The invariants of PD state (R24). -/
def PdInv (a : Arch) : Prop :=
  a.cnt.toNat ≤ 11 ∧ a.len.toNat ≤ 37 ∧ (a.len.toNat ≤ 36 → a.buf.toNat < 2 ^ a.len.toNat)

/-- `n <= VT_DEPTH`. -/
def withinDepth (p : Config.Params) (n : Nat) : Prop := ∀ d, p.vtDepth = some d → n ≤ d

/-- `c <= 2^VT_CNTW - 1`. -/
def withinCount (p : Config.Params) (c : Nat) : Prop := ∀ w, p.vtCntW = some w → c ≤ 2 ^ w - 1

/-- The invariants of VT state (R26). -/
def VtInv (p : Config.Params) (a : Arch) : Prop :=
  withinDepth p a.vtN ∧ (a.table.map Entry.msg).Nodup ∧
    ∀ e ∈ a.table, 1 ≤ e.cnt ∧ withinCount p e.cnt ∧ validMsgWord e.msg = true

/-- While `RESULT_VALID = 1`, `RESULT` is a message word and `RESULT_CNT` an occurrence count (R29). -/
def ResultInv (p : Config.Params) (a : Arch) : Prop :=
  a.resultValid = true → validMsgWord a.result = true ∧ 1 ≤ a.resultCnt ∧ withinCount p a.resultCnt

/-- A packet event as R88 gives it: `ok = (rej = 0000)`, a valid message word when accepted, all zero when rejected. -/
def EventOk (e : PacketEvent) : Prop :=
  (evOk e = true ↔ evRej e = 0) ∧ (evOk e = true → validMsgWord (evMsg e) = true) ∧ (evOk e = false → evMsg e = 0)

/-- The invariant of the machine: legal parameters, R24, R26, R29, and at most one event, of the form of R88 (R57, R88). -/
def State.Inv (s : State) : Prop :=
  s.params.ok = true ∧ PdInv s.arch ∧ VtInv s.params s.arch ∧ ResultInv s.params s.arch ∧
    s.ev.length ≤ 1 ∧ ∀ e ∈ s.ev, EventOk e

/-- An occurrence of the message `m` reaches the voter in the step of `i` from `s` to `t`: `i` is its tally, or a `BYTE` that closes
a buffer of 36 bits which parse to `m`, and whose event says so (R163, R195). -/
def Arrives (i : Instr) (s t : State) (m : MsgWord) : Prop :=
  i = .vtTally m ∨
    ((∃ d, i = .byte d) ∧ s.arch.len.toNat = 36 ∧ parse s.arch.buf = .accept m ∧ t.ev = [packetEvent true 0 m s.arch.buf])

/-- All `VT_DEPTH` entries are in use and none holds `m`: the cause of `F_VTFULL` when `m` arrives (R218). -/
def TableFullFor (p : Config.Params) (m : MsgWord) (a : Arch) : Prop :=
  (∃ d, p.vtDepth = some d ∧ d ≤ a.vtN) ∧ ∀ e ∈ a.table, e.msg ≠ m

/-- The first entry that holds `m` has a count of `2^VT_CNTW - 1`: the cause of `F_VTSAT` when `m` arrives (R219, R163). -/
def CountFullFor (p : Config.Params) (m : MsgWord) (a : Arch) : Prop :=
  ∃ (w i : Nat) (e : Entry), p.vtCntW = some w ∧ a.table[i]? = some e ∧ e.msg = m ∧ e.cnt = 2 ^ w - 1 ∧
    ∀ j < i, ∀ x, a.table[j]? = some x → x.msg ≠ m

/-- No fault flag is set (R216). -/
def Arch.clean (a : Arch) : Bool := !a.flag .fCmd && !a.flag .fVtFull && !a.flag .fVtSat

/-- PD and VT state at its reset value: the start of a window (R193, R242). -/
def Arch.atWindowStart (a : Arch) : Prop := a.cnt = 0 ∧ a.buf = 0 ∧ a.len = 0 ∧ a.table = []

/-- What a step keeps for the host beside the architectural state: the parameters and the inputs still to come. -/
def State.Keeps (s t : State) : Prop := t.params = s.params ∧ t.pending = s.pending

/-- The packets that a list of samples makes `sample_step` return, one after the other, with the state they leave (R112). -/
def runSamples (ss : List Bool) (a : Arch) : Arch × List Packet :=
  ss.foldl (fun r s => ((sampleStep s r.1).1, r.2 ++ (sampleStep s r.1).2.toList)) (a, [])

/-- `a` with no flag set, to see which flags a run raises whatever was set before it. -/
def Arch.clearStatus (a : Arch) : Arch := { a with status := 0 }

/-- The run of a list of command words from `s`, with the concatenation of the `EV` lists of its steps; none if a step stops
(R190, R198, R246). -/
def runCommands : List CmdWord → State → Option (State × List PacketEvent)
  | [], s => some (s, [])
  | w :: ws, s =>
    match step { s with pending := .command w :: s.pending } with
    | .next t => (runCommands ws t).map (fun r => (r.1, t.ev ++ r.2))
    | .fault _ => none
    | .refused _ => none

/-- The code of a command word (R71). -/
def cmdCode (w : CmdWord) : BitVec 2 := w.extractLsb' 8 2

/-- The data bytes of the `BYTE` commands among command words, in order (R51). -/
def dataBytes (ws : List CmdWord) : List Byte :=
  ws.filterMap (fun w => if cmdCode w = 0b01#2 then some (w.extractLsb' 0 8) else none)

end Sys2Proof.Machine
end

