-- ==== Sys2Proof/Certificates/Slice0/Obligations.lean ====
section
/-! DEFINITION. The statements about the model, each from numbered rules of spec/ (OBLIGATIONS.json names the rule and quotes it). -/

open Sys2Proof Sys2Proof.Machine Sys2Proof.Machine.Reference

/-! Encoding and decoding -/

/-- Words written out bit by bit from the tables of R72, R74 and R77 decode to what they stand for. The model's choice, and no
rule of the spec (log entry 12, DESIGN CHOICE): that the number of bytes tells the format, and the last clause, that a command
word with a bit set above bit 9 is no word. -/
def Obligations.TableWordsDecode : Prop :=
  decodeTableWord 16 0b0000000000 = some (.nop 0) ∧
  decodeTableWord 16 0b0110100101 = some (.byte 0xA5) ∧
  decodeTableWord 16 0b1011111111 = some (.endCmd 0xFF) ∧
  decodeTableWord 16 0b1100000000 = some (.rsvd 0) ∧
  decodeTableWord 8 0b00011 = some (.pdZero 3) ∧
  decodeTableWord 8 0b10000 = some .pdNoise ∧
  decodeTableWord 8 0b10011 = some (.pdShort2to3 1) ∧
  decodeTableWord 8 0b10110 = some (.pdLong6to7 0) ∧
  decodeTableWord 8 0b11011 = some .pdSync11 ∧
  decodeTableWord 40 0b101010111000000011101011111100101101 = some (.ppParseAccept 0xAB 1 0 0x0EB 0x2D) ∧
  decodeTableWord 40 0b101010111000000011101011111101100101 = some (.ppParseReject 0xAB80EBF65) ∧
  decodeTableWord 16 0b10000000000 = none

/-- Every well-formed operation is a micro-operation without a word (R94), or has a word that decodes to it, as a word and as
bytes. The clause on bytes, `decodeBytes w.bytes = .ok i`, rests on the byte layout that is the model's choice, and no rule of
the spec (log entry 12, DESIGN CHOICE). -/
def Obligations.DecodeOfEncode : Prop :=
  ∀ i : Instr, i.wellFormed = true →
    (i.isMicroOp = true ∧ encode i = none) ∨
      (i.isMicroOp = false ∧ ∃ w, encode i = some w ∧ decodeWord w = i ∧ decodeBytes w.bytes = .ok i)

/-- Every word of every format decodes to a well-formed operation whose word it is: decoding is total and drops no bit. -/
def Obligations.EncodeOfDecode : Prop :=
  ∀ w : FormatWord, (decodeWord w).wellFormed = true ∧ encode (decodeWord w) = some w

/-! The step -/

/-- A step runs the decoded operation of the first input presented, on the state without that input (log entries 5 and 6: how
inputs are presented is the model's choice). -/
def Obligations.StepRunsDecoded : Prop :=
  ∀ (s : State) (rest : List Stimulus),
    (∀ w, s.pending = .command w :: rest → step s = exec (decodeCW w) { s with pending := rest }) ∧
    (∀ b, s.pending = .sample b :: rest → step s = exec (decodeEW (eventWord b s.arch.cnt)) { s with pending := rest }) ∧
    (∀ P, s.pending = .packet P :: rest → step s = exec (decodePacket P) { s with pending := rest })

/-- A table word that decodes, presented as the next input, is run by the very next step; presenting it changes nothing that the
run sees but `CNT`, and that only for an event word, which holds it (R73). How a word is presented is the model's choice, and no
rule of the spec: the inputs to come in the state and `withFetchWord` (log entry 5, DESIGN CHOICE), the sample and packet inputs
at unit level (log entry 6, DESIGN CHOICE) and the bytes of a word (log entry 12, DESIGN CHOICE). -/
def Obligations.PresentedWordIsRun : Prop :=
  ∀ (s : State) (nbits w : Nat) (i : Instr), decodeTableWord nbits w = some i →
    ∃ c : BitVec 4, step (s.withFetchWord nbits w) = exec i { s with arch := { s.arch with cnt := c } } ∧
      (c = s.arch.cnt ∨ ∃ b, i = decodeEW (eventWord b c))

/-- A step that takes the reset input leaves the reset values of R33, and `RESULT` and `RESULT_CNT` are not readable after it.
That reset is one entry of the inputs to come, and that the parameters and the later inputs stay (`t.params = s.params`,
`t.pending = rest`), is the model's choice, and no rule of the spec (log entry 13, DESIGN CHOICE). The rule alone, without how a
reset is presented, is `ResetReachesTheResetValues`. -/
def Obligations.ResetValues : Prop :=
  State.reset.arch.atWindowStart ∧ State.reset.arch.status = 0 ∧
  ∀ (s : State) (rest : List Stimulus), s.pending = .reset :: rest →
    ∃ t, step s = .next t ∧ t.arch.cnt = 0 ∧ t.arch.buf = 0 ∧ t.arch.len = 0 ∧ t.arch.vtN = 0 ∧ t.arch.status = 0 ∧
      readPort .result t.arch = .error .resultNotValid ∧ readPort .resultCnt t.arch = .error .resultNotValid ∧
      t.arch.atWindowStart ∧ t.params = s.params ∧ t.pending = rest

/-- R33: reset puts every component at its reset value, from every state; `RESULT` and `RESULT_CNT` are not readable after it; the
state after reset is the state at the start of a window. -/
def Obligations.ResetReachesTheResetValues : Prop :=
  ∀ s : State, ∀ a ∈ [State.reset.arch, s.afterReset.arch],
    a.cnt = 0 ∧ a.buf = 0 ∧ a.len = 0 ∧ a.vtN = 0 ∧ a.status = 0 ∧ a.resultValid = false ∧ (∀ f, a.flag f = false) ∧
      readPort .result a = .error .resultNotValid ∧ readPort .resultCnt a = .error .resultNotValid ∧ a.atWindowStart

/-- R29, R56: a read of an output register changes nothing but the value returned; `RESULT` and `RESULT_CNT` are read only while
`RESULT_VALID = 1`, and their read is a fault otherwise. That a read is an entry of the inputs to come and that its value goes to
`out` is the model's choice (log entries 5 and 8). -/
def Obligations.PortReads : Prop :=
  ∀ (s : State) (p : Port) (rest : List Stimulus), s.pending = .read p :: rest →
    (p = .status → step s = .next { s with pending := rest, out := .status s.arch.status }) ∧
    (s.arch.resultValid = true → p = .result → step s = .next { s with pending := rest, out := .result s.arch.result }) ∧
    (s.arch.resultValid = true → p = .resultCnt → step s = .next { s with pending := rest, out := .resultCnt s.arch.resultCnt }) ∧
    (s.arch.resultValid = false → p ≠ .status → step s = .fault .resultNotValid)

/-- No command, no sample, no packet and no reset stops the machine: a step answers a next state, but for the host's read of
`RESULT` or `RESULT_CNT` while `RESULT_VALID = 0`. -/
def Obligations.NoInputStopsTheBlock : Prop :=
  ∀ s : State, (∃ t, step s = .next t) ∨
    (step s = .fault .resultNotValid ∧ s.arch.resultValid = false ∧ ∃ p rest, s.pending = .read p :: rest ∧ p ≠ .status)

/-- The parameters are constants of the model: no step changes them. -/
def Obligations.ParametersAreConstant : Prop :=
  ∀ s t : State, step s = .next t → t.params = s.params

/-! The pulse decoder -/

/-- R102 -/
def Obligations.ZeroSampleCounts : Prop :=
  ∀ (c : BitVec 4) (s : State),
    decodeEW (0#1 ++ c) = .pdZero c ∧
    ∃ t, exec (.pdZero c) s = .next t ∧ t.arch.cnt.toNat = min (s.arch.cnt.toNat + 1) 11 ∧
      t.arch = { s.arch with cnt := t.arch.cnt } ∧ t.ev = [] ∧ t.out = .none ∧ s.Keeps t

/-- R103 -/
def Obligations.NoiseSampleDoesNothing : Prop :=
  decodeEW 0b10000#5 = .pdNoise ∧
  ∀ s : State, ∃ t, exec .pdNoise s = .next t ∧ t.arch.cnt = 0 ∧ t.arch = { s.arch with cnt := t.arch.cnt } ∧
    (s.arch.cnt = 0 → t.arch = s.arch) ∧ t.ev = [] ∧ t.out = .none ∧ s.Keeps t

/-- R104: the three rows of `PD.SHORT` are the gaps 1 to 4, and each appends a logical 0. -/
def Obligations.ShortGapAppendsZero : Prop :=
  (∀ c : BitVec 4, 1 ≤ c.toNat → c.toNat ≤ 4 →
    decodeEW (1#1 ++ c) = .pdShort1 ∨ (∃ x, decodeEW (1#1 ++ c) = .pdShort2to3 x) ∨ decodeEW (1#1 ++ c) = .pdShort4) ∧
  ∀ (i : Instr) (s : State), (i = .pdShort1 ∨ (∃ c, i = .pdShort2to3 c) ∨ i = .pdShort4) →
    ∃ t, exec i s = .next t ∧
      t.arch.buf.toNat = (2 * s.arch.buf.toNat) % 2 ^ 36 ∧ t.arch.len.toNat = min (s.arch.len.toNat + 1) 37 ∧ t.arch.cnt = 0 ∧
      t.arch = { s.arch with buf := t.arch.buf, len := t.arch.len, cnt := t.arch.cnt } ∧ t.ev = [] ∧ t.out = .none ∧ s.Keeps t

/-- R105: the four rows of `PD.LONG` are the gaps 5 to 10, and each appends a logical 1. -/
def Obligations.LongGapAppendsOne : Prop :=
  (∀ c : BitVec 4, 5 ≤ c.toNat → c.toNat ≤ 10 →
    decodeEW (1#1 ++ c) = .pdLong5 ∨ (∃ x, decodeEW (1#1 ++ c) = .pdLong6to7 x) ∨ (∃ x, decodeEW (1#1 ++ c) = .pdLong8to9 x) ∨
      decodeEW (1#1 ++ c) = .pdLong10) ∧
  ∀ (i : Instr) (s : State), (i = .pdLong5 ∨ (∃ c, i = .pdLong6to7 c) ∨ (∃ c, i = .pdLong8to9 c) ∨ i = .pdLong10) →
    ∃ t, exec i s = .next t ∧
      t.arch.buf.toNat = (2 * s.arch.buf.toNat + 1) % 2 ^ 36 ∧ t.arch.len.toNat = min (s.arch.len.toNat + 1) 37 ∧ t.arch.cnt = 0 ∧
      t.arch = { s.arch with buf := t.arch.buf, len := t.arch.len, cnt := t.arch.cnt } ∧ t.ev = [] ∧ t.out = .none ∧ s.Keeps t

/-- R106: a frame boundary returns the buffer if and only if it holds exactly 36 bits, and always clears it. -/
def Obligations.SyncEmitsOnlyThirtySixBits : Prop :=
  (∀ c : BitVec 4, 11 ≤ c.toNat → decodeEW (1#1 ++ c) = .pdSync11 ∨ ∃ x, decodeEW (1#1 ++ c) = .pdSync12to15 x) ∧
  ∀ (i : Instr) (s : State), (i = .pdSync11 ∨ ∃ c, i = .pdSync12to15 c) →
    ∃ t, exec i s = .next t ∧ t.arch = { s.arch with buf := 0, len := 0, cnt := 0 } ∧
      (s.arch.len.toNat = 36 → t.out = .packet s.arch.buf) ∧ (s.arch.len.toNat ≠ 36 → t.out = .none) ∧ t.ev = [] ∧ s.Keeps t

/-- R107 -/
def Obligations.FlushEmitsNothing : Prop :=
  ∀ s : State, ∃ t, exec .pdFlush s = .next t ∧ t.arch = { s.arch with buf := 0, len := 0, cnt := 0 } ∧
    t.ev = [] ∧ t.out = .none ∧ s.Keeps t

/-- R100: a sample step selects the operation by the event word `{s, CNT}` and performs it. -/
def Obligations.SampleStepPerformsSelected : Prop :=
  ∀ (b : Bool) (s : State),
    exec (decodeEW (eventWord b s.arch.cnt)) s =
      .next (s.done (sampleStep b s.arch).1 [] (returned (sampleStep b s.arch).2)) ∧
    (b = false → sampleStep b s.arch = (pdZero s.arch, none)) ∧
    (b = true → s.arch.cnt.toNat = 0 → sampleStep b s.arch = (pdNoise s.arch, none)) ∧
    (b = true → 1 ≤ s.arch.cnt.toNat → s.arch.cnt.toNat ≤ 4 → sampleStep b s.arch = (pdShort s.arch, none)) ∧
    (b = true → 5 ≤ s.arch.cnt.toNat → s.arch.cnt.toNat ≤ 10 → sampleStep b s.arch = (pdLong s.arch, none)) ∧
    (b = true → 11 ≤ s.arch.cnt.toNat → sampleStep b s.arch = (pdSync s.arch, syncPacket s.arch))

/-- R110 (which the spec marks as derived, from rule R103): a run of one or more 1 samples has the effect of a single 1 sample. -/
def Obligations.PulseWidthIsIgnored : Prop :=
  ∀ (p : Config.Params) (a : Arch) (n : Nat), 1 ≤ n →
    feedSamples p (List.replicate n true) a = feedSamples p [true] a

/-- R112 (which the spec marks as derived, from rules R100 to R108 and R21 to R24): the registers agree with `decode_ref` after
every list of samples from the reset values of PD. -/
def Obligations.RegistersAgreeWithDecodeRef : Prop :=
  ∀ (ss : List Bool) (a : Arch), a.cnt = 0 → a.buf = 0 → a.len = 0 →
    (runSamples ss a).2 = (scan ss).out.map vectorOf ∧
    (∀ s ∈ (scan ss).out, s.length = 36) ∧
    (runSamples ss a).1.cnt.toNat = min (scan ss).count 11 ∧
    (runSamples ss a).1.len.toNat = min (scan ss).bits.length 37 ∧
    ((scan ss).bits.length ≤ 36 → (runSamples ss a).1.buf.toNat = numeral (scan ss).bits)

/-- An inference from R93, R108 and R111: a frame with gaps in their bands, from an empty buffer and with or without a leading
pulse, decodes to its 36 bits. -/
def Obligations.FrameDecodesToItsBits : Prop :=
  ∀ (bits : List Bool) (g0 g1 gs : Nat) (lead : Bool), bits.length = 36 → 1 ≤ g0 → g0 ≤ 4 → 5 ≤ g1 → g1 ≤ 10 → 11 ≤ gs →
    (scan (frame bits g0 g1 gs lead)).out = [bits]

/-- R57 (which the spec marks as derived, from R101 to R106 and R136), the bounds of a window: packets are at least 84 samples
apart and accepted messages at least 100. -/
def Obligations.WindowYieldsAreBounded : Prop :=
  ∀ bytes : List Byte,
    (decodeRef bytes).length ≤ 8 * bytes.length / 84 ∧ (windowMessages bytes).length ≤ 8 * bytes.length / 100

/-! The packet parser -/

/-- R131, with `s[i] = P[35 - i]` written out. -/
def Obligations.UnsignedExtract : Prop :=
  ∀ (P : Packet) (p w : Nat) (s : State), 1 ≤ w → p + w ≤ 36 →
    ∃ t, exec (.ppUext P p w) s = .next t ∧
      t.out = .uint (((List.range w).map (fun k => (P.getLsbD (35 - (p + k))).toNat * 2 ^ (w - 1 - k))).sum) ∧
      t.arch = s.arch ∧ t.ev = [] ∧ s.Keeps t

/-- R132: the unsigned value, less `2^w` if the field's first bit is 1. -/
def Obligations.SignedExtract : Prop :=
  ∀ (P : Packet) (p w : Nat) (s : State), 2 ≤ w → p + w ≤ 36 →
    ∃ (t : State) (n : Nat), exec (.ppSext P p w) s = .next t ∧ exec (.ppUext P p w) s = .next { t with out := .uint n } ∧
      t.out = .sint (if P.getLsbD (35 - p) then (n : Int) - 2 ^ w else n) ∧
      t.arch = s.arch ∧ t.ev = [] ∧ s.Keeps t

/-- R133: the seven fields at their positions, and together all bits of the packet. -/
def Obligations.UnpackGivesSevenFields : Prop :=
  ∀ (P : Packet) (s : State),
    ∃ (t : State) (f : Fields), exec (.ppUnpack P) s = .next t ∧ t.out = .fields f ∧
      f.id.toNat = uext P 0 8 ∧ f.batteryOk.toNat = uext P 8 1 ∧ f.const0.toNat = uext P 9 1 ∧ f.channelRaw.toNat = uext P 10 2 ∧
      f.temperatureRaw.toInt = sext P 12 12 ∧ f.const1.toNat = uext P 24 4 ∧ f.humidity.toNat = uext P 28 8 ∧
      packetOf f.id f.batteryOk f.const0 f.channelRaw f.temperatureRaw f.const1 f.humidity = P ∧
      t.arch = s.arch ∧ t.ev = [] ∧ s.Keeps t

/-- R136: the four checks, each in its bit of the reject vector. -/
def Obligations.FourChecks : Prop :=
  ∀ (c0 : BitVec 1) (c1 : BitVec 4) (ch : BitVec 2) (h : BitVec 8) (s : State),
    ∃ (t : State) (r : RejVec), exec (.ppCheck c0 c1 ch h) s = .next t ∧ t.out = .rej r ∧
      (r.getLsbD 0 = true ↔ c0 ≠ 0) ∧ (r.getLsbD 1 = true ↔ c1 ≠ 15) ∧ (r.getLsbD 2 = true ↔ ch = 3) ∧
      (r.getLsbD 3 = true ↔ 100 < h.toNat) ∧ t.arch = s.arch ∧ t.ev = [] ∧ s.Keeps t

/-- R134: the message word holds the fields, with the channel offset by one and the temperature bits copied. -/
def Obligations.MessageWordHoldsTheFields : Prop :=
  ∀ (id : BitVec 8) (b : BitVec 1) (ch : BitVec 2) (tr : BitVec 12) (h : BitVec 8) (s : State), ch.toNat ≤ 2 → h.toNat ≤ 100 →
    ∃ (t : State) (m : MsgWord), exec (.ppMkmsg id b ch tr h) s = .next t ∧ t.out = .msg m ∧
      msgId m = id ∧ msgBattery m = b ∧ (msgChannel m).toNat = ch.toNat + 1 ∧ msgTemperature m = tr ∧ msgHumidity m = h ∧
      validMsgWord m = true ∧ t.arch = s.arch ∧ t.ev = [] ∧ s.Keeps t

/-- R137: a packet with legal fields and the two constants is accepted, with the message word of its fields, which is valid;
every other packet word is rejected, with a vector that is not 0000 and shows exactly which checks failed. Neither changes any
state. -/
def Obligations.ParseAcceptsOrRejects : Prop :=
  (∀ (id : BitVec 8) (b : BitVec 1) (ch : BitVec 2) (tr : BitVec 12) (h : BitVec 8) (s : State), ch.toNat ≤ 2 → h.toNat ≤ 100 →
    decodePacket (packetOf id b 0 ch tr 15 h) = .ppParseAccept id b ch tr h ∧
    ∃ (t : State) (m : MsgWord), exec (.ppParseAccept id b ch tr h) s = .next t ∧ t.out = .parsed (.accept m) ∧
      msgId m = id ∧ msgBattery m = b ∧ (msgChannel m).toNat = ch.toNat + 1 ∧ msgTemperature m = tr ∧ msgHumidity m = h ∧
      validMsgWord m = true ∧ t.arch = s.arch ∧ t.ev = [] ∧ s.Keeps t) ∧
  ∀ (P : Packet) (s : State), acceptedPacket P = false →
    decodePacket P = .ppParseReject P ∧
    ∃ (t : State) (r : RejVec), exec (.ppParseReject P) s = .next t ∧ t.out = .parsed (.reject r) ∧ r ≠ 0 ∧
      (r.getLsbD 0 = true ↔ P.getLsbD 26 = true) ∧ (r.getLsbD 1 = true ↔ P.extractLsb' 8 4 ≠ 15) ∧
      (r.getLsbD 2 = true ↔ P.extractLsb' 24 2 = 3) ∧ (r.getLsbD 3 = true ↔ 100 < (P.extractLsb' 0 8).toNat) ∧
      t.arch = s.arch ∧ t.ev = [] ∧ s.Keeps t

/-- R138 (which the spec marks as derived, from R131 to R137, R82 and R85): `PP.PARSE` accepts exactly when `parse_ref` returns,
and its word denotes the message returned. -/
def Obligations.ParseAgreesWithParseRef : Prop :=
  ∀ P : Packet,
    (∀ m, parse P = .accept m → parseRef (stringOf P) = some (denote m)) ∧ (∀ r, parse P = .reject r → parseRef (stringOf P) = none)

/-- R142 but for its count (the spec marks the rule as derived, from R133 to R137): on the accepted packets `PP.PARSE` is a
bijection onto the valid message words, and its inverse inserts the two constants and subtracts 1 from the channel. -/
def Obligations.ParseIsBijective : Prop :=
  (∀ P m, parse P = .accept m → acceptedPacket P = true ∧ validMsgWord m = true) ∧
  ∀ m : MsgWord, validMsgWord m = true → ∀ P : Packet,
    (parse P = .accept m ↔
      P = packetOf (msgId m) (msgBattery m) 0 (msgChannel m - 1) (msgTemperature m) 15 (msgHumidity m))

/-- R86 (which the spec marks as derived, from R85 and R82): two message words denote equal messages exactly when they are equal
in all bits. -/
def Obligations.MessagesEqualExactlyWhenWordsAre : Prop :=
  ∀ m n : MsgWord, denote m = denote n ↔ m = n

/-- The model's choice (log entry 11): the operations of the parser and the tally have no meaning on operands outside their
rules, and say so by name. -/
def Obligations.OperandsOutsideTheRulesStop : Prop :=
  (∀ P p w s, ¬ (1 ≤ w ∧ p + w ≤ 36) → exec (.ppUext P p w) s = .refused (.operandOutsideRule "PP.UEXT")) ∧
  (∀ P p w s, ¬ (2 ≤ w ∧ p + w ≤ 36) → exec (.ppSext P p w) s = .refused (.operandOutsideRule "PP.SEXT")) ∧
  (∀ id b ch tr h s, ¬ (ch.toNat ≤ 2 ∧ h.toNat ≤ 100) →
    exec (.ppMkmsg id b ch tr h) s = .refused (.operandOutsideRule "PP.MKMSG")) ∧
  (∀ m s, ¬ ((msgChannel m).toNat ≠ 0 ∧ (msgHumidity m).toNat ≤ 100) →
    exec (.vtTally m) s = .refused (.operandOutsideRule "VT.TALLY"))

/-! The voter -/

/-- R163: the first entry with the message is counted once more, unless its count is at its maximum; a new message takes the next
entry, unless the table is full; the two exceptions raise their sticky flag and change nothing else. -/
def Obligations.TallyCountsOneOccurrence : Prop :=
  ∀ (m : MsgWord) (s : State), validMsgWord m = true →
    ∃ t, exec (.vtTally m) s = .next t ∧ t.ev = [] ∧ t.out = .none ∧ s.Keeps t ∧
      (∀ i e, s.arch.table[i]? = some e → e.msg = m → (∀ j < i, ∀ e', s.arch.table[j]? = some e' → e'.msg ≠ m) →
        ((∃ w, s.params.vtCntW = some w ∧ e.cnt = 2 ^ w - 1) → t.arch = { s.arch with status := s.arch.status ||| 0b1000#4 }) ∧
        (¬ (∃ w, s.params.vtCntW = some w ∧ e.cnt = 2 ^ w - 1) →
          t.arch = { s.arch with table := s.arch.table.set i ⟨m, e.cnt + 1⟩ })) ∧
      ((∀ e ∈ s.arch.table, e.msg ≠ m) →
        ((∀ d, s.params.vtDepth = some d → s.arch.vtN < d) → t.arch = { s.arch with table := s.arch.table ++ [⟨m, 1⟩] }) ∧
        (¬ (∀ d, s.params.vtDepth = some d → s.arch.vtN < d) →
          t.arch = { s.arch with status := s.arch.status ||| 0b0100#4 }))

/-- R164: `VT.SELECT` returns the first entry of greatest count and changes no state; on an empty table it is the fault
`EmptyVote`. -/
def Obligations.SelectReturnsFirstMaximum : Prop :=
  (∀ s : State, s.arch.table ≠ [] →
    ∃ (t : State) (i : Nat) (e : Entry), exec .vtSelect s = .next t ∧ s.arch.table[i]? = some e ∧ t.out = .selected e.msg e.cnt ∧
      (∀ x ∈ s.arch.table, x.cnt ≤ e.cnt) ∧ (∀ j < i, ∀ x, s.arch.table[j]? = some x → x.cnt < e.cnt) ∧
      t.arch = s.arch ∧ t.ev = [] ∧ s.Keeps t) ∧
  ∀ s : State, s.arch.table = [] → exec .vtSelect s = .fault .emptyVote

/-- R162 -/
def Obligations.ClearEmptiesTheTable : Prop :=
  ∀ s : State, ∃ t, exec .vtClear s = .next t ∧ t.arch.vtN = 0 ∧ t.arch = { s.arch with table := t.arch.table } ∧
    t.ev = [] ∧ t.out = .none ∧ s.Keeps t

/-- R172 (which the spec marks as derived, from R163 to R165): from an empty table, if no capacity fault is raised, the table
equals that of `vote_ref` entry by entry and the selection is its result; no fault is raised if the number of messages is within
both capacities. (`clearStatus` looks at the flags this run raises, whatever was set before.) -/
def Obligations.TallyAgreesWithVoteRef : Prop :=
  ∀ (p : Config.Params) (ms : List MsgWord) (a : Arch), a.table = [] → ms ≠ [] →
    ((ms.foldl (fun x m => tally p m x) a.clearStatus).clean = true →
      (ms.foldl (fun x m => tally p m x) a).table.map (fun e => (e.msg, e.cnt)) = voteTable ms ∧
      (select (ms.foldl (fun x m => tally p m x) a).table).map (fun e => (e.msg, e.cnt)) = voteRef ms) ∧
    (withinDepth p ms.length → withinCount p ms.length → (ms.foldl (fun x m => tally p m x) a.clearStatus).clean = true)

/-- R165, in its equivalent form: the winner has the greatest number of occurrences and, among those that have it, the earliest
first occurrence. For messages of every type with decidable equality: `window_ref` votes on messages, the table on message
words. -/
def Obligations.VoteRefIsFirstMaximum : Prop :=
  ∀ {α : Type} [DecidableEq α] (ms : List α), ms ≠ [] → ∃ m c, voteRef ms = some (m, c) ∧ m ∈ ms ∧ c = ms.count m ∧
    ∀ n ∈ ms, ms.count n < ms.count m ∨ (ms.count n = ms.count m ∧ ms.idxOf m ≤ ms.idxOf n)

/-! The commands -/

/-- R191 -/
def Obligations.NopChangesNothing : Prop :=
  (∀ w : CmdWord, cmdCode w = 0b00#2 → ∃ d, decodeCW w = .nop d) ∧
  ∀ (data : Byte) (s : State), ∃ t, exec (.nop data) s = .next t ∧ t.arch = s.arch ∧ t.ev = [] ∧ t.out = .none ∧ s.Keeps t

/-- R192: eight sample steps, bit 7 first, each packet emitted going through `on_packet` at once; at most one event; the result
of the previous window and `F_CMD` are not touched. -/
def Obligations.ByteFeedsEightSamples : Prop :=
  (∀ d : Byte, decodeCW (0b01#2 ++ d) = .byte d) ∧
  ∀ (d : Byte) (s : State), ∃ t, exec (.byte d) s = .next t ∧
    (t.arch, t.ev) = [7, 6, 5, 4, 3, 2, 1, 0].foldl (fun r k => chainStep s.params r (d.getLsbD k)) (s.arch, []) ∧
    t.ev.length ≤ 1 ∧ t.arch.resultValid = s.arch.resultValid ∧ t.arch.result = s.arch.result ∧
    t.arch.resultCnt = s.arch.resultCnt ∧ t.arch.flag .fCmd = s.arch.flag .fCmd ∧ t.out = .none ∧ s.Keeps t

/-- R195: a sample step that emits no packet adds no event; an accepted packet is tallied and a rejected one changes no state,
and each adds its packet event, laid out as R88 says. -/
def Obligations.EmittedPacketsAreParsedAndTallied : Prop :=
  ∀ (p : Config.Params) (b : Bool) (a a' : Arch) (evs : List PacketEvent),
    (sampleStep b a = (a', none) → chainStep p (a, evs) b = (a', evs)) ∧
    (∀ P m, sampleStep b a = (a', some P) → parse P = .accept m →
      ∃ e, chainStep p (a, evs) b = (tally p m a', evs ++ [e]) ∧ evOk e = true ∧ evRej e = 0 ∧ evMsg e = m ∧ evPacket e = P) ∧
    (∀ P r, sampleStep b a = (a', some P) → parse P = .reject r →
      ∃ e, chainStep p (a, evs) b = (a', evs ++ [e]) ∧ evOk e = false ∧ evRej e = r ∧ evMsg e = 0 ∧ evPacket e = P)

/-- R57 (which the spec marks as derived), the bounds of one `BYTE`: at most 4 bits appended, one packet, one new entry. -/
def Obligations.ByteIsBounded : Prop :=
  ∀ (d : Byte) (s t : State), exec (.byte d) s = .next t →
    t.arch.len.toNat ≤ s.arch.len.toNat + 4 ∧ t.ev.length ≤ 1 ∧ t.arch.vtN ≤ s.arch.vtN + 1

/-- R193 -/
def Obligations.EndPublishesAndClears : Prop :=
  (∀ w : CmdWord, cmdCode w = 0b10#2 → ∃ d, decodeCW w = .endCmd d) ∧
  ∀ (data : Byte) (s : State), ∃ t, exec (.endCmd data) s = .next t ∧ t.arch.atWindowStart ∧
    (s.arch.table ≠ [] → ∃ (i : Nat) (e : Entry), s.arch.table[i]? = some e ∧ (∀ x ∈ s.arch.table, x.cnt ≤ e.cnt) ∧
      (∀ j < i, ∀ x, s.arch.table[j]? = some x → x.cnt < e.cnt) ∧
      readPort .result t.arch = .ok (.result e.msg) ∧ readPort .resultCnt t.arch = .ok (.resultCnt e.cnt)) ∧
    (s.arch.table = [] → t.arch.resultValid = false ∧ readPort .result t.arch = .error .resultNotValid) ∧
    (∀ f, t.arch.flag f = s.arch.flag f) ∧ t.ev = [] ∧ t.out = .none ∧ s.Keeps t

/-- R194 -/
def Obligations.ReservedCodeSetsFCmd : Prop :=
  (∀ w : CmdWord, cmdCode w = 0b11#2 → ∃ d, decodeCW w = .rsvd d) ∧
  ∀ (data : Byte) (s : State), ∃ t, exec (.rsvd data) s = .next t ∧ t.arch = { s.arch with status := t.arch.status } ∧
    t.arch.flag .fCmd = true ∧ t.arch.flag .fVtFull = s.arch.flag .fVtFull ∧ t.arch.flag .fVtSat = s.arch.flag .fVtSat ∧
    t.arch.resultValid = s.arch.resultValid ∧ t.ev = [] ∧ t.out = .none ∧ s.Keeps t

/-! Rules of the whole machine -/

/-- R29: `RESULT` and `RESULT_CNT` are written only by `END`, and only when it sets `RESULT_VALID` to 1; no other operation
changes `RESULT_VALID`. -/
def Obligations.OnlyEndWritesTheResult : Prop :=
  ∀ (i : Instr) (s t : State), exec i s = .next t →
    ((t.arch.result ≠ s.arch.result ∨ t.arch.resultCnt ≠ s.arch.resultCnt) →
      (∃ d, i = .endCmd d) ∧ t.arch.resultValid = true) ∧
    (t.arch.resultValid ≠ s.arch.resultValid → ∃ d, i = .endCmd d)

/-- R216: a fault flag, once set, stays set until reset: no operation clears it, and no step does but one that takes the reset
input; and whatever flags are set, every command runs to its next state. -/
def Obligations.FaultFlagsAreSticky : Prop :=
  (∀ (i : Instr) (s t : State) (f : FaultFlag), exec i s = .next t → s.arch.flag f = true → t.arch.flag f = true) ∧
  (∀ (s t : State) (f : FaultFlag), step s = .next t → s.arch.flag f = true → t.arch.flag f = false →
    ∃ rest, s.pending = .reset :: rest) ∧
  ∀ (s : State) (w : CmdWord) (rest : List Stimulus), s.pending = .command w :: rest → ∃ t, step s = .next t

/-- R217, R218, R219: a fault flag is raised by its cause only. `F_CMD` by the reserved code; `F_VTFULL` by an accepted message
that is not yet in the table, arriving while all entries are in use; `F_VTSAT` by an occurrence of a message whose count is at
its maximum. -/
def Obligations.FaultFlagsHaveTheirCauses : Prop :=
  ∀ (i : Instr) (s t : State), exec i s = .next t →
    (s.arch.flag .fCmd = false → t.arch.flag .fCmd = true → ∃ d, i = .rsvd d) ∧
    (s.arch.flag .fVtFull = false → t.arch.flag .fVtFull = true →
      ∃ m, Arrives i s t m ∧ TableFullFor s.params m s.arch) ∧
    (s.arch.flag .fVtSat = false → t.arch.flag .fVtSat = true →
      ∃ m, Arrives i s t m ∧ CountFullFor s.params m s.arch)

/-- R31, R199: what an operation does to PD and VT state, and what it returns, does not depend on `STATUS`, `RESULT` or
`RESULT_CNT`, the only state that survives the end of a window; nor does the result that an `END` publishes. -/
def Obligations.EarlierWindowsCannotBeSeen : Prop :=
  ∀ (i : Instr) (s t s' t' : State), exec i s = .next s' → exec i t = .next t' → s.params = t.params →
    s.arch.cnt = t.arch.cnt → s.arch.buf = t.arch.buf → s.arch.len = t.arch.len → s.arch.table = t.arch.table →
    s'.arch.cnt = t'.arch.cnt ∧ s'.arch.buf = t'.arch.buf ∧ s'.arch.len = t'.arch.len ∧ s'.arch.table = t'.arch.table ∧
      s'.ev = t'.ev ∧ s'.out = t'.out ∧
      ((∃ d, i = .endCmd d) →
        s'.arch.resultValid = t'.arch.resultValid ∧
        (s.arch.table ≠ [] → s'.arch.result = t'.arch.result ∧ s'.arch.resultCnt = t'.arch.resultCnt) ∧
        ∀ p, p ≠ .status → readPort p s'.arch = readPort p t'.arch)

/-- R55: zero bytes before an `END` change nothing of what the `END` leaves. -/
def Obligations.ZeroPaddingIsHarmless : Prop :=
  ∀ (n : Nat) (s : State),
    ∃ t u evs, runCommands (List.replicate n 0x100#10 ++ [0x200#10]) s = some (t, evs) ∧ evs = [] ∧
      runCommands [0x200#10] s = some (u, []) ∧ t.arch = u.arch

/-- R198 (which the spec marks as derived, from R192, R195 and R112): the events of a window of `BYTE` and `NOP` commands are
those of the packets of `decode_ref`, in order, and the accepted ones carry the messages of the window, in order. -/
def Obligations.WindowEventsAreTheReferencePackets : Prop :=
  ∀ (ws : List CmdWord) (s : State), (∀ w ∈ ws, cmdCode w = 0b00#2 ∨ cmdCode w = 0b01#2) → s.arch.atWindowStart →
    ∃ t evs, runCommands ws s = some (t, evs) ∧
      evs.map evPacket = (decodeRef (dataBytes ws)).map vectorOf ∧
      (evs.filter evOk).map (fun e => denote (evMsg e)) = windowMessages (dataBytes ws)

/-- R199 (which the spec marks as derived, from R192, R193, R195, R197, R112 and R172): after a window of `BYTE` and `NOP`
commands and its `END`, if these raise no fault flag, the result is that of `window_ref` of the bytes of the window, and PD and
VT state is at its reset value. (The run from `clearStatus` shows which flags the window raises, whatever was set before it.) -/
def Obligations.WindowResultIsWindowRef : Prop :=
  ∀ (ws : List CmdWord) (data : Byte) (s : State), (∀ w ∈ ws, cmdCode w = 0b00#2 ∨ cmdCode w = 0b01#2) → s.arch.atWindowStart →
    ∃ t evs t₀ evs₀, runCommands (ws ++ [0b10#2 ++ data]) s = some (t, evs) ∧
      runCommands (ws ++ [0b10#2 ++ data]) { s with arch := s.arch.clearStatus } = some (t₀, evs₀) ∧
      t.arch.atWindowStart ∧
      (t₀.arch.clean = true →
        (windowRef (dataBytes ws) = none → t.arch.resultValid = false) ∧
        (∀ m c, windowRef (dataBytes ws) = some (m, c) →
          t.arch.resultValid = true ∧ validMsgWord t.arch.result = true ∧ denote t.arch.result = m ∧ t.arch.resultCnt = c))

/-- R169 (which the spec marks as derived, from R57 and R163): a window short enough for the capacities raises neither capacity
fault. -/
def Obligations.ShortWindowsRaiseNoCapacityFault : Prop :=
  ∀ (ws : List CmdWord) (s : State), (∀ w ∈ ws, cmdCode w = 0b00#2 ∨ cmdCode w = 0b01#2) → s.arch.atWindowStart →
    (∃ t evs, runCommands ws s = some (t, evs) ∧
      (withinDepth s.params (8 * (dataBytes ws).length / 100) → t.arch.flag .fVtFull = s.arch.flag .fVtFull) ∧
      (withinCount s.params (8 * (dataBytes ws).length / 100) → t.arch.flag .fVtSat = s.arch.flag .fVtSat))

/-! Invariants -/

/-- R24 (which the spec marks as derived, from R21 to R23): true after reset and kept by every step. -/
def Obligations.PdInvariant : Prop :=
  PdInv State.reset.arch ∧ ∀ s t : State, PdInv s.arch → step s = .next t → PdInv t.arch

/-- R26 (which the spec marks as derived, from R25, R163 and R137): true after reset and kept by every step, for every legal
choice of the parameters. -/
def Obligations.VtInvariant : Prop :=
  VtInv State.reset.params State.reset.arch ∧
  ∀ s t : State, s.params.ok = true → VtInv s.params s.arch → step s = .next t → VtInv t.params t.arch

/-- The invariant of the machine holds at reset. -/
def Obligations.InvariantAtReset : Prop := State.reset.Inv

/-- The invariant of the machine is kept by every operation, those that no word selects among them. -/
def Obligations.OperationsKeepInvariant : Prop :=
  ∀ (i : Instr) (s t : State), s.Inv → exec i s = .next t → t.Inv

/-- The invariant of the machine is kept by every step. -/
def Obligations.StepsKeepInvariant : Prop :=
  ∀ s t : State, s.Inv → step s = .next t → t.Inv
end

