-- ==== Sys2Proof/Laws/State.lean ====
section
/-! SUPPORT. What each update of the state leaves in each field, true by rfl, so that no later proof unfolds a record update. -/

namespace Sys2Proof.Machine

/-! The next state of an operation -/

@[simp] theorem State.done_arch (s : State) (a : Arch) (ev : List PacketEvent) (o : Output) : (s.done a ev o).arch = a := rfl
@[simp] theorem State.done_params (s : State) (a : Arch) (ev : List PacketEvent) (o : Output) :
    (s.done a ev o).params = s.params := rfl
@[simp] theorem State.done_pending (s : State) (a : Arch) (ev : List PacketEvent) (o : Output) :
    (s.done a ev o).pending = s.pending := rfl
@[simp] theorem State.done_ev (s : State) (a : Arch) (ev : List PacketEvent) (o : Output) : (s.done a ev o).ev = ev := rfl
@[simp] theorem State.done_out (s : State) (a : Arch) (ev : List PacketEvent) (o : Output) : (s.done a ev o).out = o := rfl

/-! The reset input -/

@[simp] theorem State.afterReset_arch (s : State) : s.afterReset.arch = Arch.reset := rfl
@[simp] theorem State.afterReset_params (s : State) : s.afterReset.params = s.params := rfl
@[simp] theorem State.afterReset_pending (s : State) : s.afterReset.pending = s.pending := rfl
@[simp] theorem State.afterReset_ev (s : State) : s.afterReset.ev = [] := rfl
@[simp] theorem State.afterReset_out (s : State) : s.afterReset.out = .none := rfl

/-! `append` -/

@[simp] theorem append_cnt (b : Bool) (a : Arch) : (append b a).cnt = a.cnt := rfl
@[simp] theorem append_table (b : Bool) (a : Arch) : (append b a).table = a.table := rfl
@[simp] theorem append_status (b : Bool) (a : Arch) : (append b a).status = a.status := rfl
@[simp] theorem append_result (b : Bool) (a : Arch) : (append b a).result = a.result := rfl
@[simp] theorem append_resultCnt (b : Bool) (a : Arch) : (append b a).resultCnt = a.resultCnt := rfl

/-! `PD.ZERO`, `PD.NOISE`, `PD.SHORT`, `PD.LONG` -/

@[simp] theorem pdZero_buf (a : Arch) : (pdZero a).buf = a.buf := rfl
@[simp] theorem pdZero_len (a : Arch) : (pdZero a).len = a.len := rfl
@[simp] theorem pdZero_table (a : Arch) : (pdZero a).table = a.table := rfl
@[simp] theorem pdZero_status (a : Arch) : (pdZero a).status = a.status := rfl
@[simp] theorem pdZero_result (a : Arch) : (pdZero a).result = a.result := rfl
@[simp] theorem pdZero_resultCnt (a : Arch) : (pdZero a).resultCnt = a.resultCnt := rfl

@[simp] theorem pdNoise_cnt (a : Arch) : (pdNoise a).cnt = 0 := rfl
@[simp] theorem pdNoise_buf (a : Arch) : (pdNoise a).buf = a.buf := rfl
@[simp] theorem pdNoise_len (a : Arch) : (pdNoise a).len = a.len := rfl
@[simp] theorem pdNoise_table (a : Arch) : (pdNoise a).table = a.table := rfl
@[simp] theorem pdNoise_status (a : Arch) : (pdNoise a).status = a.status := rfl
@[simp] theorem pdNoise_result (a : Arch) : (pdNoise a).result = a.result := rfl
@[simp] theorem pdNoise_resultCnt (a : Arch) : (pdNoise a).resultCnt = a.resultCnt := rfl

@[simp] theorem pdShort_cnt (a : Arch) : (pdShort a).cnt = 0 := rfl
@[simp] theorem pdShort_buf (a : Arch) : (pdShort a).buf = (append false a).buf := rfl
@[simp] theorem pdShort_len (a : Arch) : (pdShort a).len = (append false a).len := rfl
@[simp] theorem pdShort_table (a : Arch) : (pdShort a).table = a.table := rfl
@[simp] theorem pdShort_status (a : Arch) : (pdShort a).status = a.status := rfl
@[simp] theorem pdShort_result (a : Arch) : (pdShort a).result = a.result := rfl
@[simp] theorem pdShort_resultCnt (a : Arch) : (pdShort a).resultCnt = a.resultCnt := rfl

@[simp] theorem pdLong_cnt (a : Arch) : (pdLong a).cnt = 0 := rfl
@[simp] theorem pdLong_buf (a : Arch) : (pdLong a).buf = (append true a).buf := rfl
@[simp] theorem pdLong_len (a : Arch) : (pdLong a).len = (append true a).len := rfl
@[simp] theorem pdLong_table (a : Arch) : (pdLong a).table = a.table := rfl
@[simp] theorem pdLong_status (a : Arch) : (pdLong a).status = a.status := rfl
@[simp] theorem pdLong_result (a : Arch) : (pdLong a).result = a.result := rfl
@[simp] theorem pdLong_resultCnt (a : Arch) : (pdLong a).resultCnt = a.resultCnt := rfl

/-! `PD.SYNC` and `PD.FLUSH` -/

@[simp] theorem pdSync_cnt (a : Arch) : (pdSync a).cnt = 0 := rfl
@[simp] theorem pdSync_buf (a : Arch) : (pdSync a).buf = 0 := rfl
@[simp] theorem pdSync_len (a : Arch) : (pdSync a).len = 0 := rfl
@[simp] theorem pdSync_table (a : Arch) : (pdSync a).table = a.table := rfl
@[simp] theorem pdSync_status (a : Arch) : (pdSync a).status = a.status := rfl
@[simp] theorem pdSync_result (a : Arch) : (pdSync a).result = a.result := rfl
@[simp] theorem pdSync_resultCnt (a : Arch) : (pdSync a).resultCnt = a.resultCnt := rfl

@[simp] theorem pdFlush_cnt (a : Arch) : (pdFlush a).cnt = 0 := rfl
@[simp] theorem pdFlush_buf (a : Arch) : (pdFlush a).buf = 0 := rfl
@[simp] theorem pdFlush_len (a : Arch) : (pdFlush a).len = 0 := rfl
@[simp] theorem pdFlush_table (a : Arch) : (pdFlush a).table = a.table := rfl
@[simp] theorem pdFlush_status (a : Arch) : (pdFlush a).status = a.status := rfl
@[simp] theorem pdFlush_result (a : Arch) : (pdFlush a).result = a.result := rfl
@[simp] theorem pdFlush_resultCnt (a : Arch) : (pdFlush a).resultCnt = a.resultCnt := rfl

/-! The flags -/

@[simp] theorem raise_cnt (f : FaultFlag) (a : Arch) : (raise f a).cnt = a.cnt := rfl
@[simp] theorem raise_buf (f : FaultFlag) (a : Arch) : (raise f a).buf = a.buf := rfl
@[simp] theorem raise_len (f : FaultFlag) (a : Arch) : (raise f a).len = a.len := rfl
@[simp] theorem raise_table (f : FaultFlag) (a : Arch) : (raise f a).table = a.table := rfl
@[simp] theorem raise_result (f : FaultFlag) (a : Arch) : (raise f a).result = a.result := rfl
@[simp] theorem raise_resultCnt (f : FaultFlag) (a : Arch) : (raise f a).resultCnt = a.resultCnt := rfl

@[simp] theorem setResultValid_cnt (v : Bool) (a : Arch) : (setResultValid v a).cnt = a.cnt := rfl
@[simp] theorem setResultValid_buf (v : Bool) (a : Arch) : (setResultValid v a).buf = a.buf := rfl
@[simp] theorem setResultValid_len (v : Bool) (a : Arch) : (setResultValid v a).len = a.len := rfl
@[simp] theorem setResultValid_table (v : Bool) (a : Arch) : (setResultValid v a).table = a.table := rfl
@[simp] theorem setResultValid_result (v : Bool) (a : Arch) : (setResultValid v a).result = a.result := rfl
@[simp] theorem setResultValid_resultCnt (v : Bool) (a : Arch) : (setResultValid v a).resultCnt = a.resultCnt := rfl

/-! `VT.CLEAR` -/

@[simp] theorem vtClear_cnt (a : Arch) : (vtClear a).cnt = a.cnt := rfl
@[simp] theorem vtClear_buf (a : Arch) : (vtClear a).buf = a.buf := rfl
@[simp] theorem vtClear_len (a : Arch) : (vtClear a).len = a.len := rfl
@[simp] theorem vtClear_table (a : Arch) : (vtClear a).table = [] := rfl
@[simp] theorem vtClear_status (a : Arch) : (vtClear a).status = a.status := rfl
@[simp] theorem vtClear_result (a : Arch) : (vtClear a).result = a.result := rfl
@[simp] theorem vtClear_resultCnt (a : Arch) : (vtClear a).resultCnt = a.resultCnt := rfl

end Sys2Proof.Machine
end

