-- ==== Sys2Proof/Laws/Flags.lean ====
section
/-! SUPPORT. What raising a fault flag and writing `RESULT_VALID` do to each bit of `STATUS`. -/

namespace Sys2Proof.Machine

/-- Raising a flag sets that flag and leaves the others. -/
theorem raise_flag (f g : FaultFlag) (a : Arch) : (raise f a).flag g = (a.flag g || decide (f = g)) := by
  cases f <;> cases g <;> simp [Arch.flag, raise, FaultFlag.bit]

/-- Raising a flag leaves `RESULT_VALID`. -/
theorem raise_resultValid (f : FaultFlag) (a : Arch) : (raise f a).resultValid = a.resultValid := by
  cases f <;> simp [Arch.resultValid, raise, FaultFlag.bit]

/-- Writing `RESULT_VALID` writes it. -/
theorem setResultValid_resultValid (v : Bool) (a : Arch) : (setResultValid v a).resultValid = v := by
  cases v <;> simp [Arch.resultValid, setResultValid]

/-- Writing `RESULT_VALID` leaves the fault flags. -/
theorem setResultValid_flag (v : Bool) (f : FaultFlag) (a : Arch) : (setResultValid v a).flag f = a.flag f := by
  cases v <;> cases f <;> simp [Arch.flag, setResultValid, FaultFlag.bit]

/-- A raised flag is set, whatever was set before. -/
theorem raise_sticky {f g : FaultFlag} {a : Arch} (h : a.flag g = true) : (raise f a).flag g = true := by
  simp [raise_flag, h]

end Sys2Proof.Machine
end

