-- ==== Sys2Proof/Laws/PulseDecoder.lean ====
section
/-! SUPPORT. Everything the shared operations of the pulse decoder can do: append, the sample step, and a list of samples with the parse
and the tally inside. -/

namespace Sys2Proof.Machine

/-! `append` (R23) -/

theorem append_buf_toNat (b : Bool) (a : Arch) : (append b a).buf.toNat = (2 * a.buf.toNat + b.toNat) % 2 ^ 36 := by
  have hb : (BitVec.ofBool b).toNat = b.toNat := by cases b <;> rfl
  have hlt : b.toNat < 2 ^ 1 := by cases b <;> decide
  simp only [append, BitVec.toNat_setWidth]
  rw [BitVec.toNat_append, hb, ← Nat.shiftLeft_add_eq_or_of_lt hlt, Nat.shiftLeft_eq, Nat.mul_comm]

theorem append_len_toNat (b : Bool) (a : Arch) : (append b a).len.toNat = min (a.len.toNat + 1) 37 := by
  simp only [append, Config.lenSat, BitVec.toNat_ofNat]
  exact Nat.mod_eq_of_lt (by omega)

theorem pdZero_cnt_toNat (a : Arch) : (pdZero a).cnt.toNat = min (a.cnt.toNat + 1) 11 := by
  simp only [pdZero, Config.cntSat, BitVec.toNat_ofNat]
  exact Nat.mod_eq_of_lt (by omega)

theorem syncPacket_eq_some {a : Arch} {P : Packet} (h : syncPacket a = some P) : a.len.toNat = 36 ∧ P = a.buf := by
  by_cases hl : a.len.toNat = 36
  · exact ⟨hl, by simpa [syncPacket, Config.pktBits, hl] using h.symm⟩
  · simp [syncPacket, Config.pktBits, hl] at h

/-! The sample step (R100, R101) -/

/-- All a sample step can do: one of the five operations, each in its band of `CNT`. -/
theorem sampleStep_cases (s : Bool) (a : Arch) :
    (s = false ∧ sampleStep s a = (pdZero a, none)) ∨
    (s = true ∧ a.cnt.toNat = 0 ∧ sampleStep s a = (pdNoise a, none)) ∨
    (s = true ∧ 1 ≤ a.cnt.toNat ∧ a.cnt.toNat ≤ 4 ∧ sampleStep s a = (pdShort a, none)) ∨
    (s = true ∧ 5 ≤ a.cnt.toNat ∧ a.cnt.toNat ≤ 10 ∧ sampleStep s a = (pdLong a, none)) ∨
    (s = true ∧ 11 ≤ a.cnt.toNat ∧ sampleStep s a = (pdSync a, syncPacket a)) := by
  cases s
  · exact .inl ⟨rfl, rfl⟩
  · by_cases h1 : a.cnt.toNat < 1
    · exact .inr (.inl ⟨rfl, by omega, by simp [sampleStep, Config.shortMin, h1]⟩)
    by_cases h2 : a.cnt.toNat ≤ 4
    · exact .inr (.inr (.inl ⟨rfl, by omega, h2, by simp [sampleStep, Config.shortMin, Config.shortMax, h1, h2]⟩))
    by_cases h3 : a.cnt.toNat ≤ 10
    · exact .inr (.inr (.inr (.inl ⟨rfl, by omega, h3, by
        simp [sampleStep, Config.shortMin, Config.shortMax, Config.longMax, h1, h2, h3]⟩)))
    · exact .inr (.inr (.inr (.inr ⟨rfl, by omega, by
        simp [sampleStep, Config.shortMin, Config.shortMax, Config.longMax, h1, h2, h3]⟩)))

/-- A sample step leaves the voter table, `STATUS` and the result registers (R34). -/
theorem sampleStep_frame (s : Bool) (a : Arch) :
    (sampleStep s a).1.table = a.table ∧ (sampleStep s a).1.status = a.status ∧ (sampleStep s a).1.result = a.result ∧
      (sampleStep s a).1.resultCnt = a.resultCnt := by
  obtain ⟨-, h⟩ | ⟨-, -, h⟩ | ⟨-, -, -, h⟩ | ⟨-, -, -, h⟩ | ⟨-, -, h⟩ := sampleStep_cases s a <;> rw [h] <;> exact ⟨rfl, rfl, rfl, rfl⟩

/-- A sample step that returns a packet is a frame boundary with 36 bits in the buffer. -/
theorem sampleStep_emits {s : Bool} {a : Arch} {P : Packet} (h : (sampleStep s a).2 = some P) :
    s = true ∧ 11 ≤ a.cnt.toNat ∧ a.len.toNat = 36 ∧ P = a.buf ∧ (sampleStep s a).1 = pdSync a := by
  obtain ⟨-, e⟩ | ⟨-, -, e⟩ | ⟨-, -, -, e⟩ | ⟨-, -, -, e⟩ | ⟨hs, hc, e⟩ := sampleStep_cases s a <;> rw [e] at h
  · cases h
  · cases h
  · cases h
  · cases h
  · exact ⟨hs, hc, (syncPacket_eq_some h).1, (syncPacket_eq_some h).2, by rw [e]⟩

/-! Samples in a row, with the parse and the tally inside (R192, R195) -/

/-- All one sample of a `BYTE` can do. -/
theorem chainStep_cases (p : Config.Params) (r : Arch × List PacketEvent) (s : Bool) :
    ((sampleStep s r.1).2 = none ∧ chainStep p r s = ((sampleStep s r.1).1, r.2)) ∨
    ∃ P, (sampleStep s r.1).2 = some P ∧
      chainStep p r s = (onPacket p P (sampleStep s r.1).1, r.2 ++ [eventOf P (parse P)]) := by
  rcases h : sampleStep s r.1 with ⟨a, _ | P⟩
  · exact .inl ⟨rfl, by simp [chainStep, h]⟩
  · exact .inr ⟨P, rfl, by simp [chainStep, h]⟩

/-- What every sample step of a list keeps, the list keeps. -/
theorem foldl_chainStep_keeps {p : Config.Params} (M : Arch × List PacketEvent → Prop)
    (step : ∀ r s, M r → M (chainStep p r s)) (ss : List Bool) (r : Arch × List PacketEvent) (h : M r) :
    M (ss.foldl (chainStep p) r) := by
  induction ss generalizing r with
  | nil => exact h
  | cons s ss ih => exact ih _ (step _ _ h)

/-- What every sample step keeps, a `BYTE` keeps. -/
theorem feedByte_keeps {p : Config.Params} (M : Arch × List PacketEvent → Prop)
    (step : ∀ r s, M r → M (chainStep p r s)) (d : Byte) (a : Arch) (h : M (a, [])) : M (feedByte p d a) :=
  foldl_chainStep_keeps M step _ _ h

end Sys2Proof.Machine
end

