-- ==== Sys2Proof/Laws/Voter.lean ====
section
/-! SUPPORT. Everything the shared operations of the voter can do: the search of the table, the tally, the selection and the
publishing of `END`. -/

namespace Sys2Proof.Machine

theorem hasRoom_iff (p : Config.Params) (n : Nat) : hasRoom p n = true ↔ ∀ d, p.vtDepth = some d → n < d := by
  cases h : p.vtDepth <;> simp [hasRoom, h]

theorem atMax_iff (p : Config.Params) (c : Nat) : atMax p c = true ↔ ∃ w, p.vtCntW = some w ∧ c = 2 ^ w - 1 := by
  cases h : p.vtCntW <;> simp [atMax, h]

/-- The search fails exactly when no entry holds the message. -/
theorem countAgain_eq_none (p : Config.Params) (m : MsgWord) (es : List Entry) :
    countAgain p m es = none ↔ ∀ e ∈ es, e.msg ≠ m := by
  induction es with
  | nil => simp [countAgain]
  | cons e es ih =>
    by_cases h : e.msg = m
    · simp only [countAgain, h, if_true]
      split <;> simp [h]
    · simp [countAgain, h, ih]

/-- The search finds the first entry with the message, at index `i`; it counts it once more, unless its count is at its maximum. -/
theorem countAgain_eq_some {p : Config.Params} {m : MsgWord} {es es' : List Entry} {sat : Bool}
    (h : countAgain p m es = some (es', sat)) :
    ∃ i e, es[i]? = some e ∧ e.msg = m ∧ (∀ j < i, ∀ x, es[j]? = some x → x.msg ≠ m) ∧ sat = atMax p e.cnt ∧
      es' = if sat then es else es.set i ⟨m, e.cnt + 1⟩ := by
  induction es generalizing es' with
  | nil => simp [countAgain] at h
  | cons e es ih =>
    by_cases hm : e.msg = m
    · refine ⟨0, e, rfl, hm, by simp, ?_⟩
      simp only [countAgain, hm, if_true] at h
      split at h <;> (obtain ⟨rfl, rfl⟩ := Prod.mk.inj (Option.some.inj h)) <;> simp_all
    · simp only [countAgain, hm, if_false, Option.map_eq_some_iff, Prod.mk.injEq] at h
      obtain ⟨r, hr, rfl, rfl⟩ := h
      obtain ⟨i, x, hi, hx, hlt, hs, he⟩ := ih hr
      refine ⟨i + 1, x, by simpa using hi, hx, ?_, hs, ?_⟩
      · intro j hj y hy
        cases j with
        | zero => simp at hy; exact hy ▸ hm
        | succ j => exact hlt j (by omega) y (by simpa using hy)
      · rw [he]; split <;> simp

/-- All a tally can do (R163). -/
theorem tally_cases (p : Config.Params) (m : MsgWord) (a : Arch) :
    (∃ i e, a.table[i]? = some e ∧ e.msg = m ∧ (∀ j < i, ∀ x, a.table[j]? = some x → x.msg ≠ m) ∧
      ((atMax p e.cnt = true ∧ tally p m a = raise .fVtSat a) ∨
       (atMax p e.cnt = false ∧ tally p m a = { a with table := a.table.set i ⟨m, e.cnt + 1⟩ }))) ∨
    ((∀ e ∈ a.table, e.msg ≠ m) ∧
      ((hasRoom p a.vtN = true ∧ tally p m a = { a with table := a.table ++ [⟨m, 1⟩] }) ∨
       (hasRoom p a.vtN = false ∧ tally p m a = raise .fVtFull a))) := by
  unfold tally
  rcases h : countAgain p m a.table with _ | ⟨es', sat⟩
  · refine .inr ⟨(countAgain_eq_none p m _).1 h, ?_⟩
    cases hr : hasRoom p a.vtN <;> simp
  · obtain ⟨i, e, hi, he, hlt, hs, hes⟩ := countAgain_eq_some h
    refine .inl ⟨i, e, hi, he, hlt, ?_⟩
    cases sat
    · exact .inr ⟨hs.symm, by simp [hes]⟩
    · exact .inl ⟨hs.symm, rfl⟩

/-- A tally leaves the registers of PD and the result registers (R34). -/
theorem tally_frame (p : Config.Params) (m : MsgWord) (a : Arch) :
    (tally p m a).cnt = a.cnt ∧ (tally p m a).buf = a.buf ∧ (tally p m a).len = a.len ∧ (tally p m a).result = a.result ∧
      (tally p m a).resultCnt = a.resultCnt ∧ (tally p m a).resultValid = a.resultValid := by
  obtain ⟨_, _, -, -, -, ⟨-, h⟩ | ⟨-, h⟩⟩ | ⟨-, ⟨-, h⟩ | ⟨-, h⟩⟩ := tally_cases p m a <;> rw [h] <;>
    refine ⟨rfl, rfl, rfl, rfl, rfl, ?_⟩
  · exact raise_resultValid _ _
  · rfl
  · rfl
  · exact raise_resultValid _ _

/-- `on_packet` leaves the state or tallies the message of an accepted packet (R195). -/
theorem onPacket_cases (p : Config.Params) (P : Packet) (a : Arch) :
    (∃ m, parse P = .accept m ∧ onPacket p P a = tally p m a) ∨ (∃ r, parse P = .reject r ∧ onPacket p P a = a) := by
  unfold onPacket
  cases h : parse P with
  | accept m => exact .inl ⟨m, rfl, rfl⟩
  | reject r => exact .inr ⟨r, rfl, rfl⟩

/-! Selection (R164) -/

theorem select_eq_none (es : List Entry) : select es = none ↔ es = [] := by cases es <;> simp [select]

/-- The choice among the first entry and the later ones is one of them with no count above its own. -/
theorem foldl_better_spec (e : Entry) (es : List Entry) :
    ∃ i : Nat, (e :: es)[i]? = some (es.foldl better e) ∧ (∀ x ∈ e :: es, x.cnt ≤ (es.foldl better e).cnt) ∧
      ∀ j < i, ∀ x : Entry, (e :: es)[j]? = some x → x.cnt < (es.foldl better e).cnt := by
  induction es generalizing e with
  | nil => exact ⟨0, by simp⟩
  | cons y ys ih =>
    obtain ⟨i, hi, hmax, hlt⟩ := ih (better e y)
    simp only [List.foldl_cons]
    by_cases hy : y.cnt > e.cnt
    · simp only [better, hy, if_true] at hi hmax hlt ⊢
      refine ⟨i + 1, by simpa using hi, ?_, ?_⟩
      · intro x hx
        have := hmax y (by simp)
        rcases List.mem_cons.1 hx with rfl | hx
        · omega
        · exact hmax x hx
      · intro j hj x hx
        cases j with
        | zero => have := hmax y (by simp); simp at hx; subst hx; omega
        | succ j => exact hlt j (by omega) x (by simpa using hx)
    · simp only [better, hy, if_false] at hi hmax hlt ⊢
      have he := hmax e (by simp)
      have hx' : ∀ x ∈ e :: y :: ys, x.cnt ≤ (List.foldl better e ys).cnt := by
        intro x hx
        rcases List.mem_cons.1 hx with rfl | hx
        · exact he
        · rcases List.mem_cons.1 hx with rfl | hx
          · omega
          · exact hmax x (by simp [hx])
      cases i with
      | zero => exact ⟨0, by simpa using hi, hx', by simp⟩
      | succ i =>
        refine ⟨i + 2, by simpa using hi, hx', ?_⟩
        intro j hj x hx
        have h0 := hlt 0 (by omega) e rfl
        rcases j with _ | _ | j
        · simp at hx; subst hx; exact h0
        · simp at hx; subst hx; omega
        · exact hlt (j + 1) (by omega) x (by simpa using hx)

/-- `VT.SELECT` answers the first entry of greatest count. -/
theorem select_spec {es : List Entry} {e : Entry} (h : select es = some e) :
    ∃ i : Nat, es[i]? = some e ∧ (∀ x ∈ es, x.cnt ≤ e.cnt) ∧ ∀ j < i, ∀ x : Entry, es[j]? = some x → x.cnt < e.cnt := by
  cases es with
  | nil => simp [select] at h
  | cons y ys =>
    obtain rfl : ys.foldl better y = e := by simpa [select] using h
    exact foldl_better_spec y ys

theorem select_mem {es : List Entry} {e : Entry} (h : select es = some e) : e ∈ es := by
  obtain ⟨i, hi, -⟩ := select_spec h
  exact List.mem_of_getElem? hi

/-! `END` (R193) -/

@[simp] theorem endWindow_cnt (a : Arch) : (endWindow a).cnt = 0 := by
  unfold endWindow publish; cases select a.table <;> rfl
@[simp] theorem endWindow_buf (a : Arch) : (endWindow a).buf = 0 := by
  unfold endWindow publish; cases select a.table <;> rfl
@[simp] theorem endWindow_len (a : Arch) : (endWindow a).len = 0 := by
  unfold endWindow publish; cases select a.table <;> rfl
@[simp] theorem endWindow_table (a : Arch) : (endWindow a).table = [] := rfl

/-- `END` leaves the fault flags. -/
theorem endWindow_flag (f : FaultFlag) (a : Arch) : (endWindow a).flag f = a.flag f := by
  unfold endWindow publish
  cases select a.table with
  | none => exact setResultValid_flag false f (pdFlush a)
  | some e => exact setResultValid_flag true f { pdFlush a with result := e.msg, resultCnt := e.cnt }

/-- `END` publishes the selected entry, if there is one; otherwise it keeps the contents of the result registers and only writes
`RESULT_VALID`. -/
theorem endWindow_result (a : Arch) :
    (∃ e, select a.table = some e ∧ (endWindow a).resultValid = true ∧ (endWindow a).result = e.msg ∧
      (endWindow a).resultCnt = e.cnt) ∨
    (select a.table = none ∧ (endWindow a).resultValid = false ∧ (endWindow a).result = a.result ∧
      (endWindow a).resultCnt = a.resultCnt) := by
  unfold endWindow publish
  cases select a.table with
  | none => exact .inr ⟨rfl, setResultValid_resultValid false (pdFlush a), rfl, rfl⟩
  | some e =>
    exact .inl ⟨e, rfl, setResultValid_resultValid true { pdFlush a with result := e.msg, resultCnt := e.cnt }, rfl, rfl⟩

end Sys2Proof.Machine
end

