-- ==== Sys2Proof/Laws/Commands.lean ====
section
/-! SUPPORT. Everything a `BYTE` can do to the state behind PD, in one lemma: `feedByte_cases`. Two architectural
states agree but for `CNT`, `BUF` and `LEN` exactly when `pdFlush` makes them equal. -/

namespace Sys2Proof.Machine

/-- `on_packet` leaves the run counter. -/
theorem onPacket_cnt (p : Config.Params) (P : Packet) (a : Arch) : (onPacket p P a).cnt = a.cnt := by
  obtain ⟨m, -, h⟩ | ⟨r, -, h⟩ := onPacket_cases p P a <;> rw [h]
  exact (tally_frame p m a).1

/-- `pdFlush` keeps all but `CNT`, `BUF` and `LEN`. -/
theorem pdFlush_eq_iff (a b : Arch) :
    pdFlush a = pdFlush b ↔
      a.table = b.table ∧ a.status = b.status ∧ a.result = b.result ∧ a.resultCnt = b.resultCnt := by
  cases a; cases b; simp [pdFlush, clearBuf]

/-- A sample step changes PD registers only (R34). -/
theorem sampleStep_pdFlush (s : Bool) (a : Arch) : pdFlush (sampleStep s a).1 = pdFlush a := by
  obtain ⟨-, h⟩ | ⟨-, -, h⟩ | ⟨-, -, -, h⟩ | ⟨-, -, -, h⟩ | ⟨-, -, h⟩ := sampleStep_cases s a <;> rw [h] <;> rfl

/-- With `CNT` at most 10 a sample is no frame boundary: it returns no packet, and it adds at most one to `CNT`. -/
theorem sampleStep_quiet {s : Bool} {a : Arch} (h : a.cnt.toNat ≤ 10) :
    (sampleStep s a).2 = none ∧ (sampleStep s a).1.cnt.toNat ≤ a.cnt.toNat + 1 := by
  obtain ⟨-, e⟩ | ⟨-, -, e⟩ | ⟨-, -, -, e⟩ | ⟨-, -, -, e⟩ | ⟨-, h11, -⟩ := sampleStep_cases s a
  · rw [e]
    exact ⟨rfl, by rw [pdZero_cnt_toNat]; omega⟩
  · rw [e]; exact ⟨rfl, Nat.zero_le _⟩
  · rw [e]; exact ⟨rfl, Nat.zero_le _⟩
  · rw [e]; exact ⟨rfl, Nat.zero_le _⟩
  · omega

/-- Too few samples to reach a frame boundary: no event, and nothing changes but `CNT`, `BUF` and `LEN`. -/
theorem foldl_chainStep_quiet (p : Config.Params) (ss : List Bool) (r : Arch × List PacketEvent)
    (h : r.1.cnt.toNat + ss.length ≤ 11) :
    (ss.foldl (chainStep p) r).2 = r.2 ∧ pdFlush (ss.foldl (chainStep p) r).1 = pdFlush r.1 := by
  induction ss generalizing r with
  | nil => exact ⟨rfl, rfl⟩
  | cons s ss ih =>
    simp only [List.length_cons] at h
    obtain ⟨hn, hc⟩ := sampleStep_quiet (s := s) (a := r.1) (by omega)
    obtain ⟨-, e⟩ | ⟨P, hs, -⟩ := chainStep_cases p r s
    · obtain ⟨h1, h2⟩ := ih (chainStep p r s) (by rw [e]; simp only; omega)
      rw [List.foldl_cons, h1, h2, e]
      exact ⟨rfl, sampleStep_pdFlush s r.1⟩
    · rw [hn] at hs; cases hs

/-- At most eleven samples: either no packet is emitted, or the buffer held 36 bits before the first of them and these are the only
packet. -/
theorem feedSamples_cases (p : Config.Params) (ss : List Bool) (a : Arch) (h : ss.length ≤ 11) :
    ((feedSamples p ss a).2 = [] ∧ pdFlush (feedSamples p ss a).1 = pdFlush a) ∨
    (a.len.toNat = 36 ∧ (feedSamples p ss a).2 = [eventOf a.buf (parse a.buf)] ∧
      pdFlush (feedSamples p ss a).1 = pdFlush (onPacket p a.buf (pdFlush a))) := by
  unfold feedSamples
  induction ss generalizing a with
  | nil => exact .inl ⟨rfl, rfl⟩
  | cons s ss ih =>
    simp only [List.length_cons] at h
    rw [List.foldl_cons]
    obtain ⟨hn, e⟩ | ⟨P, hP, e⟩ := chainStep_cases p (a, []) s
    · obtain ⟨-, hs⟩ | ⟨-, -, hs⟩ | ⟨-, -, -, hs⟩ | ⟨-, -, -, hs⟩ | ⟨-, -, hs⟩ := sampleStep_cases s a <;>
        simp only [hs] at e <;> rw [e]
      · exact ih (pdZero a) (by omega)
      · exact .inl (foldl_chainStep_quiet p ss (pdNoise a, []) (show 0 + ss.length ≤ 11 by omega))
      · exact .inl (foldl_chainStep_quiet p ss (pdShort a, []) (show 0 + ss.length ≤ 11 by omega))
      · exact .inl (foldl_chainStep_quiet p ss (pdLong a, []) (show 0 + ss.length ≤ 11 by omega))
      · exact .inl (foldl_chainStep_quiet p ss (pdSync a, []) (show 0 + ss.length ≤ 11 by omega))
    · obtain ⟨-, -, hl, rfl, hs⟩ := sampleStep_emits hP
      rw [e, hs]
      have hc : (onPacket p a.buf (pdSync a)).cnt = 0 := onPacket_cnt p a.buf (pdSync a)
      obtain ⟨h1, h2⟩ := foldl_chainStep_quiet p ss (onPacket p a.buf (pdSync a), [] ++ [eventOf a.buf (parse a.buf)])
        (by simp only [hc]; simp; omega)
      exact .inr ⟨hl, h1, h2⟩

/-- All a `BYTE` can do to what lies behind PD: nothing, with no event; or take the one packet that closes the buffer it found. -/
theorem feedByte_cases (p : Config.Params) (d : Byte) (a : Arch) :
    ((feedByte p d a).2 = [] ∧ pdFlush (feedByte p d a).1 = pdFlush a) ∨
    (a.len.toNat = 36 ∧ (feedByte p d a).2 = [eventOf a.buf (parse a.buf)] ∧
      pdFlush (feedByte p d a).1 = pdFlush (onPacket p a.buf (pdFlush a))) :=
  feedSamples_cases p (samples d) a (by simp [samples])

end Sys2Proof.Machine
end

