-- ==== Sys2Proof/Laws/Decode.lean ====
section
/-! SUPPORT. Facts about the rows of the table: the rows of the event word partition its 32 values and those of the command word are
disjoint (R72, R74). -/

namespace Sys2Proof

/-- The match and mask pairs of the command rows (R72). -/
def commandRows : List (CmdWord × CmdWord) := [(0x000, 0x300), (0x100, 0x300), (0x200, 0x300), (0x300, 0x300)]

/-- The match and mask pairs of the sample-event rows (R74). -/
def eventRows : List (EventWord × EventWord) :=
  [(0x00, 0x10), (0x10, 0x1F), (0x11, 0x1F), (0x12, 0x1E), (0x14, 0x1F), (0x15, 0x1F), (0x16, 0x1E), (0x18, 0x1E), (0x1A, 0x1F),
   (0x1B, 0x1F), (0x1C, 0x1C)]

/-- No command word matches two rows, and each matches one. -/
theorem commandRows_partition :
    commandRows.Pairwise (fun r q => r.1 &&& (r.2 &&& q.2) ≠ q.1 &&& (r.2 &&& q.2)) ∧
      (commandRows.map (fun r => 2 ^ (10 - ((List.range 10).filter (fun k => r.2.getLsbD k)).length))).sum = 2 ^ 10 := by
  decide

/-- No event word matches two rows, and each matches one. -/
theorem eventRows_partition :
    eventRows.Pairwise (fun r q => r.1 &&& (r.2 &&& q.2) ≠ q.1 &&& (r.2 &&& q.2)) ∧
      (eventRows.map (fun r => 2 ^ (5 - ((List.range 5).filter (fun k => r.2.getLsbD k)).length))).sum = 2 ^ 5 := by
  decide

end Sys2Proof
end

