-- ==== Sys2Proof/Laws/PacketParser.lean ====
section
/-! SUPPORT. What the parser's shared operations compute, bit by bit where a statement reads bits. -/

namespace Sys2Proof.Machine

/-- Bit `j` of the field at string position `p` is bit `36 - p - w + j` of the packet (R10, R79). -/
theorem fieldBits_getLsbD (P : Packet) (p w j : Nat) (h : j < w) :
    (fieldBits P p w).getLsbD j = P.getLsbD (36 - p - w + j) := by
  simp [fieldBits, Config.pktBits, h]

/-- The checks pass exactly on the constants and legal fields (R136). -/
theorem check_eq_zero (c0 : BitVec 1) (c1 : BitVec 4) (ch : BitVec 2) (h : BitVec 8) :
    check c0 c1 ch h = 0 ↔ c0 = 0 ∧ c1 = 15 ∧ ch.toNat ≤ 2 ∧ h.toNat ≤ 100 := by
  simp only [check, Config.humMax, Config.chRawMax, Config.const1Val, Config.const0Val]
  by_cases h0 : c0 = 0 <;> by_cases h1 : c1 = 15 <;> by_cases h2 : ch.toNat ≤ 2 <;> by_cases h3 : h.toNat ≤ 100 <;>
    simp [h0, h1, h2, h3, Nat.not_le.1, Nat.not_lt.2] <;> decide +revert

/-- Each check is one bit of the reject vector (R87). -/
theorem check_getLsbD (c0 : BitVec 1) (c1 : BitVec 4) (ch : BitVec 2) (h : BitVec 8) :
    (check c0 c1 ch h).getLsbD 0 = decide (c0 ≠ 0) ∧ (check c0 c1 ch h).getLsbD 1 = decide (c1 ≠ 15) ∧
      (check c0 c1 ch h).getLsbD 2 = decide (2 < ch.toNat) ∧ (check c0 c1 ch h).getLsbD 3 = decide (100 < h.toNat) := by
  refine ⟨?_, ?_, ?_, ?_⟩ <;> unfold check Config.humMax Config.chRawMax Config.const1Val Config.const0Val <;>
    (repeat rw [BitVec.getLsbD_append]) <;> simp

/-- All `PP.PARSE` can answer (R137). -/
theorem parse_cases (P : Packet) :
    (acceptedPacket P = true ∧ parse P = .accept (mkMsg (P.extractLsb' 28 8) (P.extractLsb' 27 1) (P.extractLsb' 24 2)
        (P.extractLsb' 12 12) (P.extractLsb' 0 8))) ∨
    (acceptedPacket P = false ∧ check (P.extractLsb' 26 1) (P.extractLsb' 8 4) (P.extractLsb' 24 2) (P.extractLsb' 0 8) ≠ 0 ∧
      parse P = .reject (check (P.extractLsb' 26 1) (P.extractLsb' 8 4) (P.extractLsb' 24 2) (P.extractLsb' 0 8))) := by
  have key := check_eq_zero (P.extractLsb' 26 1) (P.extractLsb' 8 4) (P.extractLsb' 24 2) (P.extractLsb' 0 8)
  have acc : acceptedPacket P = true ↔ check (P.extractLsb' 26 1) (P.extractLsb' 8 4) (P.extractLsb' 24 2) (P.extractLsb' 0 8) = 0 := by
    rw [key]
    simp only [acceptedPacket, legalFields, Bool.and_eq_true, decide_eq_true_eq, and_assoc]
    rfl
  by_cases h : check (P.extractLsb' 26 1) (P.extractLsb' 8 4) (P.extractLsb' 24 2) (P.extractLsb' 0 8) = 0
  · exact .inl ⟨acc.2 h, if_pos h⟩
  · exact .inr ⟨by simpa using mt acc.1 h, h, if_neg h⟩

/-- `PP.PARSE` accepts exactly the packets of R90. -/
theorem parse_accepts_iff (P : Packet) : (∃ m, parse P = .accept m) ↔ acceptedPacket P = true := by
  obtain ⟨h, e⟩ | ⟨h, -, e⟩ := parse_cases P <;> simp [h, e]

/-- The fields of a message word built by `PP.MKMSG` (R85, R134). -/
theorem mkMsg_fields (id : BitVec 8) (b : BitVec 1) (ch : BitVec 2) (t : BitVec 12) (h : BitVec 8) :
    msgId (mkMsg id b ch t h) = id ∧ msgBattery (mkMsg id b ch t h) = b ∧ msgChannel (mkMsg id b ch t h) = ch + 1 ∧
      msgTemperature (mkMsg id b ch t h) = t ∧ msgHumidity (mkMsg id b ch t h) = h := by
  refine ⟨?_, ?_, ?_, ?_, ?_⟩ <;> apply BitVec.eq_of_getLsbD_eq <;> intro i hi <;>
    simp only [msgId, msgBattery, msgChannel, msgTemperature, msgHumidity, mkMsg, BitVec.getLsbD_extractLsb', hi, decide_true,
      Bool.true_and] <;>
    (repeat rw [BitVec.getLsbD_append]) <;> split_ifs <;> first | omega | (congr 1; omega)

/-- The fields of a packet event (R88). -/
theorem packetEvent_fields (ok : Bool) (r : RejVec) (m : MsgWord) (P : Packet) :
    evOk (packetEvent ok r m P) = ok ∧ evRej (packetEvent ok r m P) = r ∧ evMsg (packetEvent ok r m P) = m ∧
      evPacket (packetEvent ok r m P) = P := by
  refine ⟨?_, ?_, ?_, ?_⟩
  · simp only [evOk, packetEvent]
    repeat rw [BitVec.getLsbD_append]
    simp
  all_goals
    apply BitVec.eq_of_getLsbD_eq; intro i hi
    simp only [evRej, evMsg, evPacket, packetEvent, BitVec.getLsbD_extractLsb', hi, decide_true, Bool.true_and]
    repeat rw [BitVec.getLsbD_append]
    split_ifs <;> first | omega | (congr 1; omega)

end Sys2Proof.Machine
end

