-- ==== Sys2Proof/Laws/PerInstr.lean ====
section
/-! SUPPORT. One statement per operation about it as syntax: its word, where it has one, is of its row's format and matches the row's
match and mask (or the row's pattern), and a micro-operation has none (spec/30_encoding.md rules R72, R74, R94). -/

namespace Sys2Proof.Laws.InItsRow

/-- What the word of an operation looks like, row by row of the opcode table. -/
def Statement : Instr → Prop
  | .nop data => ∃ w, encode (.nop data) = some (.cw w) ∧ rowMatches w 0x000 0x300 = true
  | .byte d => ∃ w, encode (.byte d) = some (.cw w) ∧ rowMatches w 0x100 0x300 = true
  | .endCmd data => ∃ w, encode (.endCmd data) = some (.cw w) ∧ rowMatches w 0x200 0x300 = true
  | .rsvd data => ∃ w, encode (.rsvd data) = some (.cw w) ∧ rowMatches w 0x300 0x300 = true
  | .pdZero c => ∃ w, encode (.pdZero c) = some (.ew w) ∧ rowMatches w 0x00 0x10 = true
  | .pdNoise => ∃ w, encode .pdNoise = some (.ew w) ∧ rowMatches w 0x10 0x1F = true
  | .pdShort1 => ∃ w, encode .pdShort1 = some (.ew w) ∧ rowMatches w 0x11 0x1F = true
  | .pdShort2to3 c => ∃ w, encode (.pdShort2to3 c) = some (.ew w) ∧ rowMatches w 0x12 0x1E = true
  | .pdShort4 => ∃ w, encode .pdShort4 = some (.ew w) ∧ rowMatches w 0x14 0x1F = true
  | .pdLong5 => ∃ w, encode .pdLong5 = some (.ew w) ∧ rowMatches w 0x15 0x1F = true
  | .pdLong6to7 c => ∃ w, encode (.pdLong6to7 c) = some (.ew w) ∧ rowMatches w 0x16 0x1E = true
  | .pdLong8to9 c => ∃ w, encode (.pdLong8to9 c) = some (.ew w) ∧ rowMatches w 0x18 0x1E = true
  | .pdLong10 => ∃ w, encode .pdLong10 = some (.ew w) ∧ rowMatches w 0x1A 0x1F = true
  | .pdSync11 => ∃ w, encode .pdSync11 = some (.ew w) ∧ rowMatches w 0x1B 0x1F = true
  | .pdSync12to15 c => ∃ w, encode (.pdSync12to15 c) = some (.ew w) ∧ rowMatches w 0x1C 0x1C = true
  | .ppParseAccept id b cc t h =>
    ∃ P, encode (.ppParseAccept id b cc t h) = some (.packet P) ∧ rowMatches P 0x000000F00 0x004000F00 = true
  | .ppParseReject P => (Instr.ppParseReject P).wellFormed = true → encode (.ppParseReject P) = some (.packet P) ∧ acceptedPacket P = false
  | .pdFlush => encode .pdFlush = none
  | .ppUext P p w => encode (.ppUext P p w) = none
  | .ppSext P p w => encode (.ppSext P p w) = none
  | .ppUnpack P => encode (.ppUnpack P) = none
  | .ppCheck c0 c1 cc h => encode (.ppCheck c0 c1 cc h) = none
  | .ppMkmsg id b cc t h => encode (.ppMkmsg id b cc t h) = none
  | .vtTally m => encode (.vtTally m) = none
  | .vtSelect => encode .vtSelect = none
  | .vtClear => encode .vtClear = none

theorem nop (data : Byte) : Statement (.nop data) := ⟨_, rfl, by revert data; decide⟩
theorem byte (d : Byte) : Statement (.byte d) := ⟨_, rfl, by revert d; decide⟩
theorem endCmd (data : Byte) : Statement (.endCmd data) := ⟨_, rfl, by revert data; decide⟩
theorem rsvd (data : Byte) : Statement (.rsvd data) := ⟨_, rfl, by revert data; decide⟩
theorem pdZero (c : BitVec 4) : Statement (.pdZero c) := ⟨_, rfl, by revert c; decide⟩
theorem pdNoise : Statement .pdNoise := ⟨_, rfl, by decide⟩
theorem pdShort1 : Statement .pdShort1 := ⟨_, rfl, by decide⟩
theorem pdShort2to3 (c : BitVec 1) : Statement (.pdShort2to3 c) := ⟨_, rfl, by revert c; decide⟩
theorem pdShort4 : Statement .pdShort4 := ⟨_, rfl, by decide⟩
theorem pdLong5 : Statement .pdLong5 := ⟨_, rfl, by decide⟩
theorem pdLong6to7 (c : BitVec 1) : Statement (.pdLong6to7 c) := ⟨_, rfl, by revert c; decide⟩
theorem pdLong8to9 (c : BitVec 1) : Statement (.pdLong8to9 c) := ⟨_, rfl, by revert c; decide⟩
theorem pdLong10 : Statement .pdLong10 := ⟨_, rfl, by decide⟩
theorem pdSync11 : Statement .pdSync11 := ⟨_, rfl, by decide⟩
theorem pdSync12to15 (c : BitVec 2) : Statement (.pdSync12to15 c) := ⟨_, rfl, by revert c; decide⟩

theorem ppParseAccept (id : BitVec 8) (b : BitVec 1) (cc : BitVec 2) (t : BitVec 12) (h : BitVec 8) :
    Statement (.ppParseAccept id b cc t h) := by
  refine ⟨_, rfl, ?_⟩
  simp only [rowMatches, beq_iff_eq]
  apply BitVec.eq_of_getLsbD_eq
  intro i hi
  rw [BitVec.getLsbD_and]
  by_cases h8 : 8 ≤ i ∧ i < 12 ∨ i = 26
  · simp only [packetOf, Config.const0Val, Config.const1Val]
    repeat rw [BitVec.getLsbD_append]
    rcases h8 with ⟨h1, h2⟩ | rfl
    · interval_cases i <;> simp
    · simp
  · have : (0x004000F00#36).getLsbD i = false := by
      rw [not_or, not_and] at h8
      interval_cases i <;> first | rfl | omega
    have h2 : (0x000000F00#36).getLsbD i = false := by
      rw [not_or, not_and] at h8
      interval_cases i <;> first | rfl | omega
    simp [this, h2]

theorem ppParseReject (P : Packet) : Statement (.ppParseReject P) := fun h => ⟨rfl, by simpa [Instr.wellFormed] using h⟩
theorem pdFlush : Statement .pdFlush := rfl
theorem ppUext (P : Packet) (p w : Nat) : Statement (.ppUext P p w) := rfl
theorem ppSext (P : Packet) (p w : Nat) : Statement (.ppSext P p w) := rfl
theorem ppUnpack (P : Packet) : Statement (.ppUnpack P) := rfl
theorem ppCheck (c0 : BitVec 1) (c1 : BitVec 4) (cc : BitVec 2) (h : BitVec 8) : Statement (.ppCheck c0 c1 cc h) := rfl
theorem ppMkmsg (id : BitVec 8) (b : BitVec 1) (cc : BitVec 2) (t : BitVec 12) (h : BitVec 8) :
    Statement (.ppMkmsg id b cc t h) := rfl
theorem vtTally (m : MsgWord) : Statement (.vtTally m) := rfl
theorem vtSelect : Statement .vtSelect := rfl
theorem vtClear : Statement .vtClear := rfl

end Sys2Proof.Laws.InItsRow
end

