-- ==== Sys2Proof/Laws/Step.lean ====
section
/-! SUPPORT. The inversion lemmas of `exec` and `step`: everything an operation and a step can do. Every invariant is a case analysis
over these, and no later proof unfolds `exec` or `step`. -/

namespace Sys2Proof.Machine

/-- What an operation may leave: the architectural state and the events, with the operation that leaves them. -/
inductive Leaves (i : Instr) (s : State) : Arch → List PacketEvent → Prop
  | same : Leaves i s s.arch []
  | byte (d : Byte) (h : i = .byte d) : Leaves i s (feedByte s.params d s.arch).1 (feedByte s.params d s.arch).2
  | endCmd (d : Byte) (h : i = .endCmd d) : Leaves i s (endWindow s.arch) []
  | rsvd (d : Byte) (h : i = .rsvd d) : Leaves i s (raise .fCmd s.arch) []
  | zero : Leaves i s (pdZero s.arch) []
  | noise : Leaves i s (pdNoise s.arch) []
  | short : Leaves i s (pdShort s.arch) []
  | long : Leaves i s (pdLong s.arch) []
  | sync : Leaves i s (pdSync s.arch) []
  | flush : Leaves i s (pdFlush s.arch) []
  | tally (m : MsgWord) (h : i = .vtTally m) (hm : validMsgWord m = true) : Leaves i s (tally s.params m s.arch) []
  | clear : Leaves i s (vtClear s.arch) []

/-- If an operation answers a next state, it is the state with one of the listed architectural states and lists of events. -/
theorem exec_next_cases {i : Instr} {s t : State} (h : exec i s = .next t) :
    ∃ a ev o, t = s.done a ev o ∧ Leaves i s a ev := by
  cases i with
  | nop data => cases h; exact ⟨_, _, _, rfl, .same⟩
  | byte d => cases h; exact ⟨_, _, _, rfl, .byte d rfl⟩
  | endCmd d => cases h; exact ⟨_, _, _, rfl, .endCmd d rfl⟩
  | rsvd d => cases h; exact ⟨_, _, _, rfl, .rsvd d rfl⟩
  | pdZero c => cases h; exact ⟨_, _, _, rfl, .zero⟩
  | pdNoise => cases h; exact ⟨_, _, _, rfl, .noise⟩
  | pdShort1 => cases h; exact ⟨_, _, _, rfl, .short⟩
  | pdShort2to3 c => cases h; exact ⟨_, _, _, rfl, .short⟩
  | pdShort4 => cases h; exact ⟨_, _, _, rfl, .short⟩
  | pdLong5 => cases h; exact ⟨_, _, _, rfl, .long⟩
  | pdLong6to7 c => cases h; exact ⟨_, _, _, rfl, .long⟩
  | pdLong8to9 c => cases h; exact ⟨_, _, _, rfl, .long⟩
  | pdLong10 => cases h; exact ⟨_, _, _, rfl, .long⟩
  | pdSync11 => cases h; exact ⟨_, _, _, rfl, .sync⟩
  | pdSync12to15 c => cases h; exact ⟨_, _, _, rfl, .sync⟩
  | ppParseAccept id b cc tr hu => cases h; exact ⟨_, _, _, rfl, .same⟩
  | ppParseReject p => cases h; exact ⟨_, _, _, rfl, .same⟩
  | pdFlush => cases h; exact ⟨_, _, _, rfl, .flush⟩
  | ppUext P p w =>
    simp only [exec, execPpUext] at h
    split at h
    · cases h; exact ⟨_, _, _, rfl, .same⟩
    · cases h
  | ppSext P p w =>
    simp only [exec, execPpSext] at h
    split at h
    · cases h; exact ⟨_, _, _, rfl, .same⟩
    · cases h
  | ppUnpack P => cases h; exact ⟨_, _, _, rfl, .same⟩
  | ppCheck c0 c1 cc hu => cases h; exact ⟨_, _, _, rfl, .same⟩
  | ppMkmsg id b cc tr hu =>
    simp only [exec, execPpMkmsg] at h
    split at h
    · cases h; exact ⟨_, _, _, rfl, .same⟩
    · cases h
  | vtTally m =>
    simp only [exec, execVtTally] at h
    split at h
    · next hm => cases h; exact ⟨_, _, _, rfl, .tally m rfl hm⟩
    · cases h
  | vtSelect =>
    simp only [exec, execVtSelect] at h
    split at h
    · cases h; exact ⟨_, _, _, rfl, .same⟩
    · cases h
  | vtClear => cases h; exact ⟨_, _, _, rfl, .clear⟩

/-- Everything a step that answers a next state can do: stay idle, run the decoded operation of the first input, reset, or let the
host read a register. -/
theorem step_next_cases {s t : State} (h : step s = .next t) :
    (s.pending = [] ∧ t = s) ∨
    (∃ rest i, exec i { s with pending := rest } = .next t ∧
      ((∃ w, s.pending = .command w :: rest ∧ i = decodeCW w) ∨
       (∃ b, s.pending = .sample b :: rest ∧ i = decodeEW (eventWord b s.arch.cnt)) ∨
       (∃ P, s.pending = .packet P :: rest ∧ i = decodePacket P))) ∨
    (∃ rest, s.pending = .reset :: rest ∧ t = { s with pending := rest }.afterReset) ∨
    (∃ p rest o, s.pending = .read p :: rest ∧ readPort p s.arch = .ok o ∧ t = { s with pending := rest, out := o }) := by
  unfold step fetch at h
  rcases hp : s.pending with _ | ⟨x, rest⟩
  · simp only [hp] at h
    exact .inl ⟨rfl, by injection h with h; exact h.symm⟩
  · cases x with
    | command w => simp only [hp] at h; exact .inr (.inl ⟨rest, _, h, .inl ⟨w, rfl, rfl⟩⟩)
    | sample b => simp only [hp] at h; exact .inr (.inl ⟨rest, _, h, .inr (.inl ⟨b, rfl, rfl⟩)⟩)
    | packet P => simp only [hp] at h; exact .inr (.inl ⟨rest, _, h, .inr (.inr ⟨P, rfl, rfl⟩)⟩)
    | reset =>
      simp only [hp] at h
      exact .inr (.inr (.inl ⟨rest, rfl, by injection h with h; exact h.symm⟩))
    | read p =>
      simp only [hp] at h
      rcases hr : readPort p s.arch with f | o
      · simp [hr] at h
      · simp only [hr] at h
        exact .inr (.inr (.inr ⟨p, rest, o, rfl, hr, by injection h with h; exact h.symm⟩))

/-- An operation keeps the parameters and the inputs still to come. -/
theorem exec_keeps {i : Instr} {s t : State} (h : exec i s = .next t) : s.Keeps t := by
  obtain ⟨a, ev, o, rfl, -⟩ := exec_next_cases h
  exact ⟨rfl, rfl⟩

end Sys2Proof.Machine
end

