-- ==== Sys2Proof/Tests/Slice0.lean ====
section
/-! SUPPORT. The model's own tests. Expected values are those of spec/95_test_vectors.md, named in each comment, or words written out from
the tables of spec/30_encoding.md; the witnesses show states and operands that meet the hypotheses of the statements. -/

open Sys2Proof Sys2Proof.Machine Sys2Proof.Machine.Reference

namespace Sys2Proof.Tests

/-! ## Well-formedness: for each check, an ill-formed term that it refuses -/

theorem test_wf_accept_channel : (Instr.ppParseAccept 0xAB 1 3 0x0EB 0x2D).wellFormed = false := by decide
theorem test_wf_accept_humidity : (Instr.ppParseAccept 0xAB 1 2 0x0EB 101).wellFormed = false := by decide
theorem test_wf_accept_boundary : (Instr.ppParseAccept 0xAB 1 2 0x0EB 100).wellFormed = true := by decide
theorem test_wf_reject_accepted : (Instr.ppParseReject 0xAB80EBF2D).wellFormed = false := by decide
theorem test_wf_uext_width_zero : (Instr.ppUext 0xAB80EBF2D 0 0).wellFormed = false := by decide
theorem test_wf_uext_past_the_end : (Instr.ppUext 0xAB80EBF2D 29 8).wellFormed = false := by decide
theorem test_wf_uext_boundary : (Instr.ppUext 0xAB80EBF2D 28 8).wellFormed = true := by decide
theorem test_wf_sext_width_one : (Instr.ppSext 0xAB80EBF2D 12 1).wellFormed = false := by decide
theorem test_wf_sext_past_the_end : (Instr.ppSext 0xAB80EBF2D 25 12).wellFormed = false := by decide
theorem test_wf_mkmsg_channel : (Instr.ppMkmsg 0xAB 1 3 0x0EB 0x2D).wellFormed = false := by decide
theorem test_wf_mkmsg_humidity : (Instr.ppMkmsg 0xAB 1 0 0x0EB 101).wellFormed = false := by decide
theorem test_wf_tally_channel : (Instr.vtTally 0x55C0EB2D).wellFormed = false := by decide
theorem test_wf_tally_humidity : (Instr.vtTally 0x55D0EB65).wellFormed = false := by decide

/-! ## Decoding: each row's word, written out bit by bit (R72, R74, R77) -/

theorem test_decode_nop : decodeTableWord 16 0b0011111111 = some (.nop 0xFF) := by decide
theorem test_decode_byte : decodeTableWord 16 0b0110000000 = some (.byte 0x80) := by decide
theorem test_decode_end : decodeTableWord 16 0b1010100101 = some (.endCmd 0xA5) := by decide
theorem test_decode_rsvd : decodeTableWord 16 0b1110100101 = some (.rsvd 0xA5) := by decide
theorem test_decode_zero : decodeTableWord 8 0b01011 = some (.pdZero 11) := by decide
theorem test_decode_noise : decodeTableWord 8 0b10000 = some .pdNoise := by decide
theorem test_decode_short1 : decodeTableWord 8 0b10001 = some .pdShort1 := by decide
theorem test_decode_short2 : decodeTableWord 8 0b10010 = some (.pdShort2to3 0) := by decide
theorem test_decode_short3 : decodeTableWord 8 0b10011 = some (.pdShort2to3 1) := by decide
theorem test_decode_short4 : decodeTableWord 8 0b10100 = some .pdShort4 := by decide
theorem test_decode_long5 : decodeTableWord 8 0b10101 = some .pdLong5 := by decide
theorem test_decode_long7 : decodeTableWord 8 0b10111 = some (.pdLong6to7 1) := by decide
theorem test_decode_long8 : decodeTableWord 8 0b11000 = some (.pdLong8to9 0) := by decide
theorem test_decode_long10 : decodeTableWord 8 0b11010 = some .pdLong10 := by decide
theorem test_decode_sync11 : decodeTableWord 8 0b11011 = some .pdSync11 := by decide
theorem test_decode_sync14 : decodeTableWord 8 0b11110 = some (.pdSync12to15 2) := by decide
/-- Packet `B`: id 60, battery 1, const0 0, channel_raw 1, temperature 0xFCE, const1 15, humidity 80. -/
theorem test_decode_accept :
    decodeTableWord 40 0b001111001001111111001110111101010000 = some (.ppParseAccept 0x3C 1 1 0xFCE 0x50) := by decide
/-- V-PP25: the all-zero word fails const1. -/
theorem test_decode_reject : decodeTableWord 40 0 = some (.ppParseReject 0) := by decide
theorem test_decode_no_format : decodeBytes [0, 0, 0] = .error (.noSuchFormat 3) := by decide
theorem test_decode_stray_bit : decodeBytes [0b00100000] = .error .strayBits := by decide

/-! ## One step each, against spec/95_test_vectors.md -/

/-- The next state of an outcome. -/
def after : Host.Outcome State Fault Refusal → Option State
  | .next t => some t
  | .fault _ => none
  | .refused _ => none

/-- The reset state with the registers of PD and the voter table given. -/
def withPd (cnt : BitVec 4) (len : BitVec 6) (buf : Packet) (table : List Entry) : State :=
  { State.reset with arch := { Arch.reset with cnt := cnt, len := len, buf := buf, table := table } }

/-- CNT, LEN, BUF. -/
def pdOf (s : State) : BitVec 4 × BitVec 6 × Packet := (s.arch.cnt, s.arch.len, s.arch.buf)

/-- V-CMD2 -/
theorem test_nop : (after (exec (.nop 0xFF) (withPd 2 5 0b10101 []))).map pdOf = some (2, 5, 0b10101) := by decide
/-- V-CMD5 -/
theorem test_byte_ff : (after (exec (.byte 0xFF) (withPd 6 3 0b010 []))).map pdOf = some (0, 4, 0b0101) := by decide
/-- V-CMD6: the packet is emitted, accepted, tallied and reported. -/
theorem test_byte_emits : (after (exec (.byte 0x80) (withPd 11 36 0xAB80EBF2D []))).map (fun s => (pdOf s, s.arch.table, s.ev)) =
    some ((7, 0, 0), [⟨0x55D0EB2D, 1⟩], [0x855D0EB2DAB80EBF2D]) := by decide
/-- V-CMD9 -/
theorem test_end : (after (exec (.endCmd 0) (withPd 3 5 0 [⟨0x1E6FCE50, 1⟩, ⟨0x55D0EB2D, 2⟩]))).map
    (fun s => (s.arch.status, s.arch.result, s.arch.resultCnt, s.arch.table)) = some (1, 0x55D0EB2D, 2, []) := by decide
/-- V-CMD11: an empty window invalidates the result. -/
theorem test_end_empty : (after (exec (.endCmd 0xA5) { State.reset with arch := { Arch.reset with status := 1 } })).map
    (fun s => s.arch.status) = some 0 := by decide
/-- V-CMD13 -/
theorem test_rsvd : (after (exec (.rsvd 0) { State.reset with arch := { Arch.reset with status := 1 } })).map
    (fun s => s.arch.status) = some 0b0011 := by decide
/-- The example of R102 at saturation. -/
theorem test_zero_saturates : (after (exec (.pdZero 11) (withPd 11 0 0 []))).map pdOf = some (11, 0, 0) := by decide
/-- The example of R103. -/
theorem test_noise : (after (exec .pdNoise (withPd 0 7 0b1010101 []))).map pdOf = some (0, 7, 0b1010101) := by decide
/-- The example of R104. -/
theorem test_short : (after (exec (.pdShort2to3 0) (withPd 2 5 0b10101 []))).map pdOf = some (0, 6, 0b101010) := by decide
/-- The buffer overflows (95, single-operation vectors). -/
theorem test_short_overflows :
    (after (exec .pdShort4 (withPd 4 36 0xAB80EBF2D []))).map pdOf = some (0, 37, 0x5701D7E5A) := by decide
theorem test_short1 : (after (exec .pdShort1 (withPd 1 0 0 []))).map pdOf = some (0, 1, 0) := by decide
/-- The example of R105. -/
theorem test_long : (after (exec .pdLong10 (withPd 10 0 0 []))).map pdOf = some (0, 1, 1) := by decide
theorem test_long5 : (after (exec .pdLong5 (withPd 5 2 0b10 []))).map pdOf = some (0, 3, 0b101) := by decide
theorem test_long6to7 : (after (exec (.pdLong6to7 1) (withPd 7 0 0 []))).map pdOf = some (0, 1, 1) := by decide
theorem test_long8to9 : (after (exec (.pdLong8to9 0) (withPd 8 0 0 []))).map pdOf = some (0, 1, 1) := by decide
/-- The example of R106. -/
theorem test_sync_emits : (after (exec .pdSync11 (withPd 11 36 0xAB80EBF2D []))).map (fun s => (pdOf s, s.out)) =
    some ((0, 0, 0), .packet 0xAB80EBF2D) := by decide
theorem test_sync_discards : (after (exec .pdSync11 (withPd 11 35 0x55C075F96 []))).map (fun s => (pdOf s, s.out)) =
    some ((0, 0, 0), .none) := by decide
theorem test_sync12to15 : (after (exec (.pdSync12to15 0) (withPd 12 37 5 []))).map (fun s => (pdOf s, s.out)) =
    some ((0, 0, 0), .none) := by decide
/-- The example of R107. -/
theorem test_flush : (after (exec .pdFlush (withPd 7 36 0xAB80EBF2D []))).map (fun s => (pdOf s, s.out)) =
    some ((0, 0, 0), .none) := by decide
/-- V-PP1 -/
theorem test_parse_accept : (after (exec (.ppParseAccept 0xAB 1 0 0x0EB 0x2D) State.reset)).map (fun s => s.out) =
    some (.parsed (.accept 0x55D0EB2D)) := by decide
/-- V-PP24 -/
theorem test_parse_reject : (after (exec (.ppParseReject 0xFFFFFFFFF) State.reset)).map (fun s => s.out) =
    some (.parsed (.reject 0b1101)) := by decide
/-- The example of R131. -/
theorem test_uext : (after (exec (.ppUext 0xAB80EBF2D 0 8) State.reset)).map (fun s => s.out) = some (.uint 171) := by decide
/-- The example of R132. -/
theorem test_sext : (after (exec (.ppSext 0xAB8FCEF2D 12 12) State.reset)).map (fun s => s.out) = some (.sint (-50)) := by decide
/-- The example of R133. -/
theorem test_unpack : (after (exec (.ppUnpack 0xAB80EBF2D) State.reset)).map (fun s => s.out) =
    some (.fields ⟨171, 1, 0, 0, 235, 15, 45⟩) := by decide
/-- V-PP27: all four checks fail; 100 is the last humidity that passes (V-PP2). -/
theorem test_check : (after (exec (.ppCheck 1 0 3 255) State.reset)).map (fun s => s.out) = some (.rej 0b1111) := by decide
theorem test_check_boundary : (after (exec (.ppCheck 0 15 2 100) State.reset)).map (fun s => s.out) = some (.rej 0) := by decide
/-- V-PP20 -/
theorem test_mkmsg : (after (exec (.ppMkmsg 92 0 2 0xF85 0) State.reset)).map (fun s => s.out) = some (.msg 0x2E3F8500) := by decide
/-- The example of R163. -/
theorem test_tally : (after (exec (.vtTally 0x55D0EB2D) (withPd 0 0 0 [⟨0x1E6FCE50, 1⟩, ⟨0x55D0EB2D, 1⟩]))).map
    (fun s => s.arch.table) = some [⟨0x1E6FCE50, 1⟩, ⟨0x55D0EB2D, 2⟩] := by decide
/-- V-VT14: the table is full. -/
theorem test_tally_full : (after (exec (.vtTally 0x55D0EC2D)
    { withPd 0 0 0 [⟨0x55D0EB2D, 1⟩, ⟨0x1E6FCE50, 1⟩] with params := { vtDepth := some 2, vtCntW := some 8 } })).map
    (fun s => (s.arch.table, s.arch.status)) = some ([⟨0x55D0EB2D, 1⟩, ⟨0x1E6FCE50, 1⟩], 0b0100) := by decide
/-- V-VT10: the first seen wins a tie. -/
theorem test_select_tie : (after (exec .vtSelect (withPd 0 0 0 [⟨0x55D0EB2D, 2⟩, ⟨0x1E6FCE50, 2⟩]))).map (fun s => s.out) =
    some (.selected 0x55D0EB2D 2) := by decide
/-- V-VT7: a later entry wins with a strictly greater count. -/
theorem test_select_later : (after (exec .vtSelect (withPd 0 0 0 [⟨0x1E6FCE50, 1⟩, ⟨0x55D0EB2D, 2⟩]))).map (fun s => s.out) =
    some (.selected 0x55D0EB2D 2) := by decide
/-- The example of R162. -/
theorem test_clear : (after (exec .vtClear (withPd 0 0 0 [⟨1, 1⟩, ⟨2, 1⟩, ⟨3, 1⟩]))).map (fun s => s.arch.vtN) = some 0 := by decide
/-- A table word presented after reset is run by the next step: the event word 11011 with an empty buffer. -/
theorem test_step_event_word : (after (step (State.reset.withFetchWord 8 0b11011))).map pdOf = some (0, 0, 0) := by decide
/-- V-PD7f's second sample: the event word 00000. -/
theorem test_step_zero_word : (after (step (State.reset.withFetchWord 8 0b00000))).map pdOf = some (1, 0, 0) := by decide
/-- V-CMD15: reset clears the flags. -/
theorem test_step_reset : (after (step { withPd 3 5 7 [⟨1, 1⟩] with pending := [.reset] })).map (fun s => s.arch) =
    some Arch.reset := by decide
/-- R29, R33: the result is not readable after reset. -/
theorem test_read_result_after_reset : readPort .result Arch.reset = .error .resultNotValid := by decide
/-- With nothing presented the block keeps all its state (R227). -/
theorem test_idle : after (step (withPd 3 5 7 [⟨1, 1⟩])) = some (withPd 3 5 7 [⟨1, 1⟩]) := by decide

/-! ## The reference functions, on the source's example (S1) and the edges of S8 -/

theorem test_parse_ref : parseRef (stringOf 0xAB80EBF2D) =
    some { id := 171, channel := 1, temperature := 47 / 2, humidity := 45, isBatteryOk := true } := by decide +kernel
/-- V-PD14: the shortest gaps, with their 21 bytes. -/
theorem test_wave : wave (frame (stringOf 0xAB80EBF2D) 1 5 11 true) =
    [0x82, 0x82, 0x82, 0x82, 0x08, 0x2A, 0xAA, 0x82, 0x08, 0x28, 0x28, 0x20, 0x82, 0x08, 0x20, 0xA8, 0x28, 0x20, 0xA0, 0x80,
      0x08] := by decide +kernel
/-- V-VT12: plurality, not majority. -/
theorem test_vote_ref : voteRef [1, 1, 2, 3, 3, 3] = some (3, 3) := by decide

/-! ## Witnesses: states and operands that meet the hypotheses of the statements, clause by clause -/

/-- A state in the middle of a window, with a result of an earlier one and a full packet at a frame boundary. -/
def busy : State :=
  { arch := { cnt := 11, buf := 0xAB80EBF2D, len := 36, table := [⟨0x1E6FCE50, 1⟩, ⟨0x55D0EB2D, 2⟩], status := 1,
              result := 0x55D0EB2D, resultCnt := 3 }
    params := {}, pending := [.command 0x180], ev := [0x855D0EB2DAB80EBF2D], out := .none }

/-- `busy` with one entry per table place and per count. -/
def full : State := { busy with params := { vtDepth := some 2, vtCntW := some 1 } }

theorem witness_DecodeOfEncode_micro : (Instr.vtTally 0x55D0EB2D).wellFormed = true ∧ (Instr.vtTally 0x55D0EB2D).isMicroOp = true := by
  decide
theorem witness_DecodeOfEncode_word : (Instr.ppParseAccept 0xAB 1 2 0x0EB 100).wellFormed = true := by decide
theorem witness_StepRunsDecoded_command : busy.pending = .command 0x180 :: [] := rfl
theorem witness_StepRunsDecoded_sample : { busy with pending := [.sample true] }.pending = .sample true :: [] := rfl
theorem witness_StepRunsDecoded_packet : { busy with pending := [.packet 0] }.pending = .packet 0 :: [] := rfl
theorem witness_PresentedWordIsRun_command : decodeTableWord 16 0x1FF = some (.byte 0xFF) := by decide
theorem witness_PresentedWordIsRun_event : decodeTableWord 8 0x1B = some .pdSync11 := by decide
theorem witness_ResetValues : { busy with pending := [.reset] }.pending = .reset :: [] := rfl
theorem witness_PortReads_valid : busy.arch.resultValid = true ∧ { busy with pending := [.read .result] }.pending = .read .result :: [] := by
  decide
theorem witness_PortReads_count : busy.arch.resultValid = true ∧
    { busy with pending := [.read .resultCnt] }.pending = .read .resultCnt :: [] := by decide
theorem witness_PortReads_status : { busy with pending := [.read .status] }.pending = .read .status :: [] := rfl
theorem witness_PortReads_invalid : State.reset.arch.resultValid = false ∧ Port.result ≠ .status := by decide
theorem witness_steps : ∃ t, step busy = .next t := ⟨_, rfl⟩

theorem witness_ShortGap_bounds : (1 ≤ (1#4).toNat ∧ (1#4).toNat ≤ 4) ∧ 1 ≤ (4#4).toNat ∧ (4#4).toNat ≤ 4 := by decide
theorem witness_ShortGap_rows : ∃ c : BitVec 1, Instr.pdShort2to3 1 = .pdShort2to3 c := ⟨1, rfl⟩
theorem witness_LongGap_bounds : (5 ≤ (5#4).toNat ∧ (5#4).toNat ≤ 10) ∧ 5 ≤ (10#4).toNat ∧ (10#4).toNat ≤ 10 := by decide
theorem witness_LongGap_rows : (∃ c : BitVec 1, Instr.pdLong6to7 0 = .pdLong6to7 c) ∧ ∃ c : BitVec 1, Instr.pdLong8to9 1 = .pdLong8to9 c :=
  ⟨⟨0, rfl⟩, ⟨1, rfl⟩⟩
theorem witness_Sync_bounds : 11 ≤ (11#4).toNat ∧ 11 ≤ (15#4).toNat := by decide
theorem witness_Sync_rows : ∃ c : BitVec 2, Instr.pdSync12to15 3 = .pdSync12to15 c := ⟨3, rfl⟩
theorem witness_Sync_emits : busy.arch.len.toNat = 36 := by decide
theorem witness_Sync_discards : (withPd 11 37 0 []).arch.len.toNat ≠ 36 ∧ (withPd 11 35 0 []).arch.len.toNat ≠ 36 := by decide
theorem witness_Noise : (withPd 0 7 5 []).arch.cnt = 0 := rfl
theorem witness_SampleStep_bands : (withPd 0 0 0 []).arch.cnt.toNat = 0 ∧ (1 ≤ (withPd 1 0 0 []).arch.cnt.toNat) ∧
    (withPd 4 0 0 []).arch.cnt.toNat ≤ 4 ∧ 5 ≤ (withPd 5 0 0 []).arch.cnt.toNat ∧ (withPd 10 0 0 []).arch.cnt.toNat ≤ 10 ∧
    11 ≤ (withPd 11 0 0 []).arch.cnt.toNat := by decide
theorem witness_RegistersAgree : Arch.reset.cnt = 0 ∧ Arch.reset.buf = 0 ∧ Arch.reset.len = 0 := by decide
theorem witness_PulseWidth : 1 ≤ 1 := Nat.le_refl 1
theorem witness_Frame : (stringOf 0xAB80EBF2D).length = 36 ∧ 1 ≤ 1 ∧ 4 ≤ 4 ∧ 5 ≤ 5 ∧ 10 ≤ 10 ∧ 11 ≤ 11 := by decide

theorem witness_UnsignedExtract : (1 ≤ 1 ∧ 35 + 1 ≤ 36) ∧ 1 ≤ 36 ∧ 0 + 36 ≤ 36 := by decide
theorem witness_SignedExtract : (2 ≤ 2 ∧ 34 + 2 ≤ 36) ∧ 2 ≤ 12 ∧ 12 + 12 ≤ 36 := by decide
theorem witness_MessageWord : (2#2).toNat ≤ 2 ∧ (100#8).toNat ≤ 100 := by decide
theorem witness_ParseRejects : acceptedPacket 0xAB80EBF65 = false := by decide
theorem witness_ParseRef_accepts : parse 0xAB80EBF2D = .accept 0x55D0EB2D := by decide
theorem witness_ParseRef_rejects : parse 0xABC0EBF65 = .reject 0b1001 := by decide
theorem witness_ParseIsBijective : validMsgWord 0x7FFFFF64 = true := by decide
theorem witness_OperandsOutside : ¬ (1 ≤ 0 ∧ 0 + 0 ≤ 36) ∧ ¬ (1 ≤ 8 ∧ 29 + 8 ≤ 36) ∧ ¬ (2 ≤ 1 ∧ 12 + 1 ≤ 36) ∧
    ¬ ((3#2).toNat ≤ 2 ∧ (0#8).toNat ≤ 100) ∧ ¬ ((msgChannel 0x55C0EB2D).toNat ≠ 0 ∧ (msgHumidity 0x55C0EB2D).toNat ≤ 100) := by
  decide

theorem witness_Tally_valid : validMsgWord 0x55D0EB2D = true := by decide
theorem witness_Tally_found : busy.arch.table[1]? = some ⟨0x55D0EB2D, 2⟩ ∧
    ∀ j < 1, ∀ e', busy.arch.table[j]? = some e' → e'.msg ≠ 0x55D0EB2D := by
  refine ⟨rfl, ?_⟩
  intro j hj e' he
  obtain rfl : j = 0 := by omega
  obtain rfl : (⟨0x1E6FCE50, 1⟩ : Entry) = e' := Option.some.inj he
  decide
theorem witness_Tally_saturated : ∃ w, full.params.vtCntW = some w ∧ 1 = 2 ^ w - 1 := ⟨1, rfl, rfl⟩
theorem witness_Tally_counts : ¬ ∃ w, busy.params.vtCntW = some w ∧ 2 = 2 ^ w - 1 := by
  rintro ⟨w, hw, h⟩
  obtain rfl : 8 = w := Option.some.inj hw
  omega
theorem witness_Tally_new : ∀ e ∈ busy.arch.table, e.msg ≠ 0x55D0EC2D := by decide
theorem witness_Tally_room : ∀ d, busy.params.vtDepth = some d → busy.arch.vtN < d := by
  intro d hd
  obtain rfl : 128 = d := Option.some.inj hd
  decide
theorem witness_Tally_noRoom : ¬ ∀ d, full.params.vtDepth = some d → full.arch.vtN < d := by
  intro h
  exact absurd (h 2 rfl) (by decide)
theorem witness_Select_some : busy.arch.table ≠ [] := by decide
theorem witness_Select_none : State.reset.arch.table = [] := rfl
theorem witness_TallyAgrees : Arch.reset.table = [] ∧
    (([0x55D0EB2D, 0x1E6FCE50, 0x55D0EB2D] : List MsgWord).foldl (fun x m => tally {} m x) Arch.reset.clearStatus).clean = true := by
  decide
theorem witness_TallyAgrees_capacity : withinDepth {} 3 ∧ withinCount {} 3 := by
  refine ⟨fun d hd => ?_, fun w hw => ?_⟩
  · obtain rfl : 128 = d := Option.some.inj hd
    decide
  · obtain rfl : 8 = w := Option.some.inj hw
    decide
theorem witness_VoteRef : ([2, 1, 1] : List MsgWord) ≠ [] := by decide
theorem witness_VoteRef_message : [denote 0x55D0EB2D, denote 0x1E6FCE50] ≠ [] := by simp

theorem witness_codes : cmdCode 0x0FF = 0b00#2 ∧ cmdCode 0x200 = 0b10#2 ∧ cmdCode 0x3FF = 0b11#2 := by decide
theorem witness_Emitted_none : sampleStep false Arch.reset = (pdZero Arch.reset, none) := by decide
theorem witness_Emitted_accept : sampleStep true busy.arch = (pdSync busy.arch, some 0xAB80EBF2D) ∧
    parse 0xAB80EBF2D = .accept 0x55D0EB2D := by decide
theorem witness_Emitted_reject :
    sampleStep true (withPd 11 36 0xAB80EBF65 []).arch = (pdSync (withPd 11 36 0xAB80EBF65 []).arch, some 0xAB80EBF65) ∧
      parse 0xAB80EBF65 = .reject 0b1000 := by decide
theorem witness_Byte : ∃ t, exec (.byte 0x80) busy = .next t := ⟨_, rfl⟩
theorem witness_OnlyEnd : ∃ t, exec (.endCmd 0) busy = .next t ∧ t.arch.resultCnt ≠ busy.arch.resultCnt := ⟨_, rfl, by decide⟩
theorem witness_OnlyEnd_valid : ∃ t, exec (.endCmd 0) (withPd 0 0 0 [⟨0x55D0EB2D, 1⟩]) = .next t ∧
    t.arch.resultValid ≠ (withPd 0 0 0 [⟨0x55D0EB2D, 1⟩]).arch.resultValid := ⟨_, rfl, by decide⟩
theorem witness_Sticky : { busy with arch := { busy.arch with status := 0b0010 } }.arch.flag .fCmd = true := by decide
theorem witness_Sticky_step : ∃ t, step { busy with arch := { busy.arch with status := 0b0010 }, pending := [.reset] } = .next t ∧
    t.arch.flag .fCmd = false := ⟨_, rfl, by decide⟩
theorem witness_Causes_cmd : ∃ t, exec (.rsvd 0) busy = .next t ∧ busy.arch.flag .fCmd = false ∧ t.arch.flag .fCmd = true :=
  ⟨_, rfl, by decide, by decide⟩
theorem witness_Causes_full : ∃ t, exec (.byte 0x80) { full with arch := { full.arch with buf := 0xAB80ECF2D } } = .next t ∧
    full.arch.flag .fVtFull = false ∧ t.arch.flag .fVtFull = true := ⟨_, rfl, by decide, by decide⟩
theorem witness_Causes_sat : ∃ t, exec (.vtTally 0x1E6FCE50) full = .next t ∧
    full.arch.flag .fVtSat = false ∧ t.arch.flag .fVtSat = true := ⟨_, rfl, by decide, by decide⟩
theorem witness_Earlier : ∃ s' t', exec (.byte 0x80) busy = .next s' ∧
    exec (.byte 0x80) { busy with arch := { busy.arch with status := 0b1110, result := 0, resultCnt := 0 } } = .next t' :=
  ⟨_, _, rfl, rfl⟩

theorem witness_Earlier_end : ∃ s' t', exec (.endCmd 0) busy = .next s' ∧
    exec (.endCmd 0) { busy with arch := { busy.arch with status := 0b1110, result := 0, resultCnt := 0 } } = .next t' ∧
    busy.arch.table ≠ [] := ⟨_, _, rfl, rfl, by decide⟩

/-- The 26 bytes of V-PD8b as commands, with a `NOP`. -/
def windowA : List CmdWord := 0x0FF :: bytesCommands (wave (frame (stringOf 0xAB80EBF2D) 2 6 12 true))
theorem witness_Window_commands : ∀ w ∈ windowA, cmdCode w = 0b00#2 ∨ cmdCode w = 0b01#2 := by decide +kernel
theorem witness_Window_start : State.reset.arch.atWindowStart := ⟨rfl, rfl, rfl, rfl⟩
theorem witness_Window_some : (windowRef (dataBytes windowA)).map (fun r => r.2) = some 1 := by decide +kernel
theorem witness_Window_none : windowRef (dataBytes [0x182, 0x100]) = none := by decide +kernel
theorem witness_Window_clean :
    ((runCommands (windowA ++ [0b10#2 ++ 0#8]) { State.reset with arch := State.reset.arch.clearStatus }).map
      (fun r => r.1.arch.clean)) = some true := by decide +kernel
theorem witness_ShortWindows : withinDepth State.reset.params (8 * (dataBytes windowA).length / 100) ∧
    withinCount State.reset.params (8 * (dataBytes windowA).length / 100) := by
  have h : 8 * (dataBytes windowA).length / 100 = 2 := by decide +kernel
  rw [h]
  refine ⟨fun d hd => ?_, fun w hw => ?_⟩
  · obtain rfl : 128 = d := Option.some.inj hd
    decide
  · obtain rfl : 8 = w := Option.some.inj hw
    decide

theorem witness_PdInv : PdInv busy.arch := by
  refine ⟨by decide, by decide, fun _ => by decide⟩
theorem witness_params : busy.params.ok = true := by decide
theorem witness_VtInv : VtInv busy.params busy.arch := by
  refine ⟨fun d hd => ?_, by decide, fun e he => ?_⟩
  · obtain rfl : 128 = d := Option.some.inj hd
    decide
  · have key : ∀ x ∈ busy.arch.table, 1 ≤ x.cnt ∧ x.cnt ≤ 255 ∧ validMsgWord x.msg = true := by decide
    refine ⟨(key e he).1, fun w hw => ?_, (key e he).2.2⟩
    obtain rfl : 8 = w := Option.some.inj hw
    exact (key e he).2.1
theorem witness_Inv : busy.Inv := by
  refine ⟨witness_params, witness_PdInv, witness_VtInv, fun _ => ⟨by decide, by decide, fun w hw => ?_⟩, by decide, ?_⟩
  · obtain rfl : 8 = w := Option.some.inj hw
    decide
  · intro e he
    obtain rfl : e = 0x855D0EB2DAB80EBF2D := by simpa [busy] using he
    exact ⟨by decide, fun _ => by decide, fun h => absurd h (by decide)⟩
theorem witness_Inv_operation : ∃ t, exec (.vtTally 0x55D0EC2D) busy = .next t := ⟨_, rfl⟩

end Sys2Proof.Tests
end

section
/-! PROOFS. The reset state component by component, and the reads of the output ports that answer no value. -/

namespace Sys2Proof.Machine

/-! The reset values -/

@[simp] theorem Arch.reset_cnt : Arch.reset.cnt = 0 := rfl
@[simp] theorem Arch.reset_buf : Arch.reset.buf = 0 := rfl
@[simp] theorem Arch.reset_len : Arch.reset.len = 0 := rfl
@[simp] theorem Arch.reset_table : Arch.reset.table = [] := rfl
@[simp] theorem Arch.reset_vtN : Arch.reset.vtN = 0 := rfl
@[simp] theorem Arch.reset_status : Arch.reset.status = 0 := rfl
@[simp] theorem State.reset_arch : State.reset.arch = Arch.reset := rfl

theorem Arch.reset_atWindowStart : Arch.reset.atWindowStart :=
  ⟨reset_cnt, reset_buf, reset_len, reset_table⟩

/-! What `STATUS = 0` says of its bits -/

theorem Arch.resultValid_eq_false_of_status {a : Arch} (h : a.status = 0) : a.resultValid = false := by
  simp [Arch.resultValid, h]

theorem Arch.flag_eq_false_of_status {a : Arch} (h : a.status = 0) (f : FaultFlag) : a.flag f = false := by
  simp [Arch.flag, h]

/-! A read while `RESULT_VALID = 0` (R29) -/

/-- Only `STATUS` is readable while `RESULT_VALID = 0`. -/
theorem readPort_of_not_resultValid {a : Arch} {p : Port} (hv : a.resultValid = false) (hp : p ≠ .status) :
    readPort p a = .error .resultNotValid := by
  cases p with
  | status => exact absurd rfl hp
  | result => simp [readPort, hv]
  | resultCnt => simp [readPort, hv]

end Sys2Proof.Machine
end

section
/-! PROOFS. The obligation on reset (R33). -/

namespace Sys2Proof.Proofs
open Sys2Proof Sys2Proof.Machine

/-- Settles O55: both states have the architectural state `Arch.reset`, whose `STATUS = 0` gives the flags and the port reads. -/
theorem resetReachesTheResetValues : Obligations.ResetReachesTheResetValues := by
  intro s a ha
  obtain rfl : a = Arch.reset := by simpa using ha
  have hvalid := Arch.resultValid_eq_false_of_status Arch.reset_status
  exact ⟨Arch.reset_cnt, Arch.reset_buf, Arch.reset_len, Arch.reset_vtN, Arch.reset_status, hvalid,
    Arch.flag_eq_false_of_status Arch.reset_status, readPort_of_not_resultValid hvalid (by decide),
    readPort_of_not_resultValid hvalid (by decide), Arch.reset_atWindowStart⟩

end Sys2Proof.Proofs
end

section
/-! PROOFS. The pulse decoder row by row: which event words select which operation (R74), what an operation's rows answer, and in
which band of `CNT` a sample step is which operation (R101). -/

namespace Sys2Proof.Machine

/-! The rows of an operation that has more than one -/

/-- A row of `PD.SHORT` (R104). -/
def IsPdShort (i : Instr) : Prop := i = .pdShort1 ∨ (∃ c, i = .pdShort2to3 c) ∨ i = .pdShort4

/-- A row of `PD.LONG` (R105). -/
def IsPdLong (i : Instr) : Prop :=
  i = .pdLong5 ∨ (∃ c, i = .pdLong6to7 c) ∨ (∃ c, i = .pdLong8to9 c) ∨ i = .pdLong10

/-- A row of `PD.SYNC` (R106). -/
def IsPdSync (i : Instr) : Prop := i = .pdSync11 ∨ ∃ c, i = .pdSync12to15 c

/-! The event words `{s, c}`: a 0 sample selects `PD.ZERO`, a 1 sample the operation of the gap `c` -/

theorem decodeEW_zero_append (c : BitVec 4) : decodeEW (0#1 ++ c) = .pdZero c := by
  revert c; decide

theorem decodeEW_one_append_of_noGap {c : BitVec 4} (h : c.toNat = 0) : decodeEW (1#1 ++ c) = .pdNoise := by
  revert c; decide

theorem isPdShort_decodeEW {c : BitVec 4} (h1 : 1 ≤ c.toNat) (h4 : c.toNat ≤ 4) : IsPdShort (decodeEW (1#1 ++ c)) := by
  unfold IsPdShort; revert c; decide

theorem isPdLong_decodeEW {c : BitVec 4} (h5 : 5 ≤ c.toNat) (h10 : c.toNat ≤ 10) : IsPdLong (decodeEW (1#1 ++ c)) := by
  unfold IsPdLong; revert c; decide

theorem isPdSync_decodeEW {c : BitVec 4} (h11 : 11 ≤ c.toNat) : IsPdSync (decodeEW (1#1 ++ c)) := by
  unfold IsPdSync; revert c; decide

/-! What an operation answers -/

theorem exec_pdZero (c : BitVec 4) (s : State) : exec (.pdZero c) s = .next (s.done (pdZero s.arch) [] .none) := rfl

theorem exec_pdNoise (s : State) : exec .pdNoise s = .next (s.done (pdNoise s.arch) [] .none) := rfl

theorem exec_pdFlush (s : State) : exec .pdFlush s = .next (s.done (pdFlush s.arch) [] .none) := rfl

theorem exec_of_isPdShort {i : Instr} (h : IsPdShort i) (s : State) :
    exec i s = .next (s.done (pdShort s.arch) [] .none) := by
  obtain rfl | ⟨c, rfl⟩ | rfl := h <;> rfl

theorem exec_of_isPdLong {i : Instr} (h : IsPdLong i) (s : State) :
    exec i s = .next (s.done (pdLong s.arch) [] .none) := by
  obtain rfl | ⟨c, rfl⟩ | ⟨c, rfl⟩ | rfl := h <;> rfl

theorem exec_of_isPdSync {i : Instr} (h : IsPdSync i) (s : State) :
    exec i s = .next (s.done (pdSync s.arch) [] (returned (syncPacket s.arch))) := by
  obtain rfl | ⟨c, rfl⟩ := h <;> rfl

/-! `PD.NOISE` at `CNT = 0`, and what a frame boundary returns (R103, R106) -/

theorem pdNoise_eq_self {a : Arch} (h : a.cnt = 0) : pdNoise a = a := by
  rw [pdNoise, ← h]

theorem syncPacket_of_len_eq {a : Arch} (h : a.len.toNat = 36) : syncPacket a = some a.buf := if_pos h

theorem syncPacket_of_len_ne {a : Arch} (h : a.len.toNat ≠ 36) : syncPacket a = none := if_neg h

/-! The sample step, band by band of `CNT` -/

theorem sampleStep_false (a : Arch) : sampleStep false a = (pdZero a, none) := rfl

theorem sampleStep_true_of_noGap {a : Arch} (h : a.cnt.toNat = 0) : sampleStep true a = (pdNoise a, none) := by
  simp [sampleStep, Config.shortMin, h]

theorem sampleStep_true_of_shortGap {a : Arch} (h1 : 1 ≤ a.cnt.toNat) (h4 : a.cnt.toNat ≤ 4) :
    sampleStep true a = (pdShort a, none) := by
  simp only [sampleStep, Config.shortMin, Config.shortMax, if_true, Nat.not_lt.2 h1, if_false, h4]

theorem sampleStep_true_of_longGap {a : Arch} (h5 : 5 ≤ a.cnt.toNat) (h10 : a.cnt.toNat ≤ 10) :
    sampleStep true a = (pdLong a, none) := by
  have h1 : ¬ a.cnt.toNat < 1 := by omega
  have h4 : ¬ a.cnt.toNat ≤ 4 := by omega
  simp only [sampleStep, Config.shortMin, Config.shortMax, Config.longMax, if_true, h1, if_false, h4, h10]

theorem sampleStep_true_of_syncGap {a : Arch} (h11 : 11 ≤ a.cnt.toNat) :
    sampleStep true a = (pdSync a, syncPacket a) := by
  have h1 : ¬ a.cnt.toNat < 1 := by omega
  have h4 : ¬ a.cnt.toNat ≤ 4 := by omega
  have h10 : ¬ a.cnt.toNat ≤ 10 := by omega
  simp only [sampleStep, Config.shortMin, Config.shortMax, Config.longMax, if_true, h1, if_false, h4, h10]

/-- The operation the event word `{s, CNT}` selects does what the sample step does (R100): the row of a band and the sample step in
that band call the same operation. -/
theorem exec_decodeEW_eventWord (b : Bool) (s : State) :
    exec (decodeEW (eventWord b s.arch.cnt)) s =
      .next (s.done (sampleStep b s.arch).1 [] (returned (sampleStep b s.arch).2)) := by
  obtain ⟨rfl, h⟩ | ⟨rfl, hc, h⟩ | ⟨rfl, h1, h4, h⟩ | ⟨rfl, h5, h10, h⟩ | ⟨rfl, h11, h⟩ := sampleStep_cases b s.arch <;> rw [h]
  · exact (congrArg (exec · s) (decodeEW_zero_append s.arch.cnt)).trans (exec_pdZero s.arch.cnt s)
  · exact (congrArg (exec · s) (decodeEW_one_append_of_noGap hc)).trans (exec_pdNoise s)
  · exact exec_of_isPdShort (isPdShort_decodeEW h1 h4) s
  · exact exec_of_isPdLong (isPdLong_decodeEW h5 h10) s
  · exact exec_of_isPdSync (isPdSync_decodeEW h11) s

end Sys2Proof.Machine
end

section
/-! PROOFS. The obligations on the pulse decoder's operations (R100 to R107). -/

namespace Sys2Proof.Proofs
open Sys2Proof Sys2Proof.Machine

/-- Settles O16: the decoded row against the sample step, and the sample step in each band of `CNT`. -/
theorem sampleStepPerformsSelected : Obligations.SampleStepPerformsSelected := by
  intro b s
  refine ⟨exec_decodeEW_eventWord b s, ?_, ?_, ?_, ?_, ?_⟩ <;> rintro rfl
  · exact sampleStep_false s.arch
  · exact sampleStep_true_of_noGap
  · exact sampleStep_true_of_shortGap
  · exact sampleStep_true_of_longGap
  · exact sampleStep_true_of_syncGap

/-- Settles O10: `CNT` counts to 11 and stays there (`pdZero_cnt_toNat`); the rest is the frame. -/
theorem zeroSampleCounts : Obligations.ZeroSampleCounts := by
  intro c s
  have hexec := exec_pdZero c s
  exact ⟨decodeEW_zero_append c, _, hexec, pdZero_cnt_toNat s.arch, rfl, rfl, rfl, exec_keeps hexec⟩

/-- Settles O11: the one field written is `CNT`, and writing 0 over 0 is no change. -/
theorem noiseSampleDoesNothing : Obligations.NoiseSampleDoesNothing := by
  refine ⟨decodeEW_one_append_of_noGap (c := 0) rfl, fun s => ?_⟩
  have hexec := exec_pdNoise s
  exact ⟨_, hexec, pdNoise_cnt s.arch, rfl, pdNoise_eq_self, rfl, rfl, exec_keeps hexec⟩

/-- Settles O12: every row of `PD.SHORT` is `append` of a 0. -/
theorem shortGapAppendsZero : Obligations.ShortGapAppendsZero := by
  refine ⟨fun c => isPdShort_decodeEW, fun i s hi => ?_⟩
  have hexec := exec_of_isPdShort hi s
  exact ⟨_, hexec, append_buf_toNat false s.arch, append_len_toNat false s.arch, pdShort_cnt s.arch, rfl, rfl, rfl,
    exec_keeps hexec⟩

/-- Settles O13: every row of `PD.LONG` is `append` of a 1. -/
theorem longGapAppendsOne : Obligations.LongGapAppendsOne := by
  refine ⟨fun c => isPdLong_decodeEW, fun i s hi => ?_⟩
  have hexec := exec_of_isPdLong hi s
  exact ⟨_, hexec, append_buf_toNat true s.arch, append_len_toNat true s.arch, pdLong_cnt s.arch, rfl, rfl, rfl,
    exec_keeps hexec⟩

/-- Settles O14: every row of `PD.SYNC` returns `syncPacket`, a packet exactly at `LEN = 36`. -/
theorem syncEmitsOnlyThirtySixBits : Obligations.SyncEmitsOnlyThirtySixBits := by
  refine ⟨fun c => isPdSync_decodeEW, fun i s hi => ?_⟩
  have hexec := exec_of_isPdSync hi s
  refine ⟨_, hexec, rfl, fun hlen => ?_, fun hlen => ?_, rfl, exec_keeps hexec⟩
  · exact congrArg returned (syncPacket_of_len_eq hlen)
  · exact congrArg returned (syncPacket_of_len_ne hlen)

/-- Settles O15: `PD.FLUSH` writes the three registers of PD and returns nothing, in every state alike. -/
theorem flushEmitsNothing : Obligations.FlushEmitsNothing := by
  intro s
  have hexec := exec_pdFlush s
  exact ⟨_, hexec, rfl, rfl, rfl, exec_keeps hexec⟩

end Sys2Proof.Proofs
end

section
/-! PROOFS. The packet parser: a field as a number (R131, R132), a packet and its seven fields (R78, R133), the message word (R134),
which packet words select which row of `PP.PARSE` (R94, R137), and what the parser's operations answer. -/

namespace Sys2Proof.Machine

/-! A field of the packet as a number -/

/-- A number is the sum of its bits by weight, the most significant bit first. -/
theorem toNat_eq_sum_bits {w : Nat} (x : BitVec w) :
    x.toNat = ((List.range w).map fun k => (x.getLsbD (w - 1 - k)).toNat * 2 ^ (w - 1 - k)).sum := by
  suffices hmod : ∀ n, x.toNat % 2 ^ n =
      ((List.range n).map fun k => (x.getLsbD (n - 1 - k)).toNat * 2 ^ (n - 1 - k)).sum by
    rw [← hmod, Nat.mod_eq_of_lt x.isLt]
  intro n
  induction n with
  | zero => simp [Nat.mod_one]
  | succ n ih =>
    have htop : x.toNat / 2 ^ n % 2 = (x.getLsbD n).toNat := by rw [← Nat.toNat_testBit, BitVec.testBit_toNat]
    rw [Nat.mod_pow_succ, ih, htop, List.range_succ_eq_map]
    simp [Function.comp_def, Nat.sub_sub, Nat.add_comm, Nat.mul_comm]

/-- Bit `k` of a field, counted from its left end, is the string's `s[p + k] = P[35 - (p + k)]` (R10). -/
theorem fieldBits_getLsbD_fromLeft {P : Packet} {p w k : Nat} (hp : p + w ≤ 36) (hk : k < w) :
    (fieldBits P p w).getLsbD (w - 1 - k) = P.getLsbD (35 - (p + k)) := by
  rw [fieldBits_getLsbD P p w (w - 1 - k) (by omega)]
  congr 1
  omega

theorem uext_eq_sum {P : Packet} {p w : Nat} (hp : p + w ≤ 36) :
    uext P p w = ((List.range w).map fun k => (P.getLsbD (35 - (p + k))).toNat * 2 ^ (w - 1 - k)).sum := by
  rw [uext, toNat_eq_sum_bits]
  refine congrArg List.sum (List.map_congr_left fun k hk => ?_)
  rw [fieldBits_getLsbD_fromLeft hp (List.mem_range.1 hk)]

theorem sext_eq_ite {P : Packet} {p w : Nat} (hw : 1 ≤ w) (hp : p + w ≤ 36) :
    sext P p w = if P.getLsbD (35 - p) then (uext P p w : Int) - 2 ^ w else uext P p w := by
  have hsign : (fieldBits P p w).msb = P.getLsbD (35 - p) := by
    rw [BitVec.msb_eq_getLsbD_last]
    exact fieldBits_getLsbD_fromLeft (k := 0) hp hw
  simp [sext, uext, BitVec.toInt_eq_msb_cond, hsign]

/-! A packet and its seven fields -/

/-- The seven fields tile the packet: each `++` joins two neighbouring slices. -/
theorem packetOf_unpack (P : Packet) :
    packetOf (unpack P).id (unpack P).batteryOk (unpack P).const0 (unpack P).channelRaw (unpack P).temperatureRaw
      (unpack P).const1 (unpack P).humidity = P := by
  simp only [packetOf, unpack, fieldBits, Config.pktBits]
  iterate 6 rw [BitVec.extractLsb'_append_extractLsb'_eq_extractLsb' (by rfl)]
  exact BitVec.extractLsb'_eq_self

/-- Skipping the fields to its right, each field is found where it was put. -/
@[simp] theorem unpack_packetOf (id : BitVec 8) (b c0 : BitVec 1) (ch : BitVec 2) (t : BitVec 12) (c1 : BitVec 4)
    (h : BitVec 8) : unpack (packetOf id b c0 ch t c1 h) = ⟨id, b, c0, ch, t, c1, h⟩ := by
  simp only [unpack, fieldBits, Config.pktBits, packetOf, Fields.mk.injEq]
  refine ⟨?_, ?_, ?_, ?_, ?_, ?_, ?_⟩ <;> repeat rw [BitVec.extractLsb'_append_eq_of_le (by decide)]
  · exact BitVec.extractLsb'_eq_self
  all_goals exact BitVec.extractLsb'_append_eq_right

/-- No two tuples of fields build the same packet. -/
theorem fields_eq_of_packetOf_eq {id id' : BitVec 8} {b b' c0 c0' : BitVec 1} {ch ch' : BitVec 2} {t t' : BitVec 12}
    {c1 c1' : BitVec 4} {h h' : BitVec 8} (e : packetOf id b c0 ch t c1 h = packetOf id' b' c0' ch' t' c1' h') :
    (⟨id, b, c0, ch, t, c1, h⟩ : Fields) = ⟨id', b', c0', ch', t', c1', h'⟩ := by
  simpa only [unpack_packetOf] using congrArg unpack e

/-! The checks and the message word -/

/-- Each bit of `rej` is set exactly when its check fails; the one illegal `channel_raw` is 3 (R87, R136). -/
theorem check_getLsbD_iff (c0 : BitVec 1) (c1 : BitVec 4) (ch : BitVec 2) (h : BitVec 8) :
    ((check c0 c1 ch h).getLsbD 0 = true ↔ c0 ≠ 0) ∧ ((check c0 c1 ch h).getLsbD 1 = true ↔ c1 ≠ 15) ∧
      ((check c0 c1 ch h).getLsbD 2 = true ↔ ch = 3) ∧ ((check c0 c1 ch h).getLsbD 3 = true ↔ 100 < h.toNat) := by
  have hch : 2 < ch.toNat ↔ ch = 3 := by revert ch; decide
  obtain ⟨h0, h1, h2, h3⟩ := check_getLsbD c0 c1 ch h
  rw [h0, h1, h2, h3, decide_eq_true_iff, decide_eq_true_iff, decide_eq_true_iff, decide_eq_true_iff]
  exact ⟨.rfl, .rfl, hch, .rfl⟩

theorem legalFields_eq_true {ch : BitVec 2} {h : BitVec 8} (hch : ch.toNat ≤ 2) (hh : h.toNat ≤ 100) :
    legalFields ch h = true := by
  simp [legalFields, Config.chRawMax, Config.humMax, hch, hh]

/-- The offset by one does not leave the two bits of the channel (R134). -/
theorem msgChannel_mkMsg_toNat {ch : BitVec 2} (hch : ch.toNat ≤ 2) (id : BitVec 8) (b : BitVec 1) (t : BitVec 12)
    (h : BitVec 8) : (msgChannel (mkMsg id b ch t h)).toNat = ch.toNat + 1 := by
  obtain ⟨-, -, hchannel, -, -⟩ := mkMsg_fields id b ch t h
  rw [hchannel, BitVec.toNat_add]
  exact Nat.mod_eq_of_lt (show ch.toNat + 1 < 4 by omega)

theorem validMsgWord_iff (m : MsgWord) : validMsgWord m = true ↔ msgChannel m ≠ 0 ∧ (msgHumidity m).toNat ≤ 100 := by
  rw [validMsgWord, Bool.and_eq_true, decide_eq_true_iff, decide_eq_true_iff]
  rfl

theorem validMsgWord_mkMsg {ch : BitVec 2} {h : BitVec 8} (hch : ch.toNat ≤ 2) (hh : h.toNat ≤ 100) (id : BitVec 8)
    (b : BitVec 1) (t : BitVec 12) : validMsgWord (mkMsg id b ch t h) = true := by
  obtain ⟨-, -, -, -, hhumidity⟩ := mkMsg_fields id b ch t h
  have hchannel := msgChannel_mkMsg_toNat hch id b t h
  refine (validMsgWord_iff _).2 ⟨fun h0 => ?_, by rwa [hhumidity]⟩
  simp [h0] at hchannel

/-! The accepting row -/

/-- The row's match and mask test the two constants: the mask is the packet that is 1 there and 0 in every other field. -/
theorem rowMatches_packetOf (id : BitVec 8) (b c0 : BitVec 1) (ch : BitVec 2) (t : BitVec 12) (c1 : BitVec 4) (h : BitVec 8) :
    rowMatches (packetOf id b c0 ch t c1 h) 0x000000F00#36 0x004000F00#36 = (decide (c0 = 0) && decide (c1 = 15)) := by
  have hmatch : 0x000000F00#36 = packetOf 0 0 0 0 0 15 0 := rfl
  have hmask : 0x004000F00#36 = packetOf 0 0 1 0 0 15 0 := rfl
  have hand : packetOf id b c0 ch t c1 h &&& packetOf 0 0 1 0 0 15 0 = packetOf 0 0 c0 0 0 c1 0 := by
    have h0 : c0 &&& 1 = c0 := BitVec.and_allOnes
    have h1 : c1 &&& 15 = c1 := BitVec.and_allOnes
    unfold packetOf
    iterate 6 rw [BitVec.and_append]
    rw [h0, h1]
    simp
  rw [rowMatches, hmatch, hmask, hand, Bool.eq_iff_iff, beq_iff_eq]
  constructor
  · intro e
    simpa using fields_eq_of_packetOf_eq e
  · intro hc
    obtain ⟨rfl, rfl⟩ : c0 = 0 ∧ c1 = 15 := by simpa using hc
    rfl

/-- The accepting row selects exactly the accepted packets of R90. -/
theorem acceptRow_eq_acceptedPacket (P : Packet) : acceptRow P = acceptedPacket P := by
  have hrow := rowMatches_packetOf (unpack P).id (unpack P).batteryOk (unpack P).const0 (unpack P).channelRaw
    (unpack P).temperatureRaw (unpack P).const1 (unpack P).humidity
  rw [packetOf_unpack] at hrow
  rw [acceptRow, hrow]
  rfl

theorem decodePacket_of_accepted {P : Packet} (h : acceptedPacket P = true) :
    decodePacket P = .ppParseAccept (unpack P).id (unpack P).batteryOk (unpack P).channelRaw (unpack P).temperatureRaw
      (unpack P).humidity :=
  if_pos ((acceptRow_eq_acceptedPacket P).trans h)

theorem decodePacket_of_not_accepted {P : Packet} (h : acceptedPacket P = false) : decodePacket P = .ppParseReject P :=
  if_neg (by simp [acceptRow_eq_acceptedPacket, h])

/-- The test of R90 reads four of the unpacked fields. -/
theorem acceptedPacket_eq_unpack (P : Packet) :
    acceptedPacket P = (decide ((unpack P).const0 = 0) && decide ((unpack P).const1 = 15) &&
      legalFields (unpack P).channelRaw (unpack P).humidity) := rfl

section
variable {ch : BitVec 2} {h : BitVec 8} (hch : ch.toNat ≤ 2) (hh : h.toNat ≤ 100)
  (id : BitVec 8) (b : BitVec 1) (t : BitVec 12)
include hch hh

theorem acceptedPacket_packetOf : acceptedPacket (packetOf id b 0 ch t 15 h) = true := by
  simp [acceptedPacket_eq_unpack, legalFields_eq_true hch hh]

theorem decodePacket_packetOf : decodePacket (packetOf id b 0 ch t 15 h) = .ppParseAccept id b ch t h := by
  rw [decodePacket_of_accepted (acceptedPacket_packetOf hch hh id b t), unpack_packetOf]

theorem parse_packetOf : parse (packetOf id b 0 ch t 15 h) = .accept (mkMsg id b ch t h) := by
  rw [parse, unpack_packetOf]
  exact if_pos ((check_eq_zero 0 15 ch h).2 ⟨rfl, rfl, hch, hh⟩)

end

/-! What an operation answers -/

theorem exec_ppUext {p w : Nat} (hw : 1 ≤ w) (hp : p + w ≤ 36) (P : Packet) (s : State) :
    exec (.ppUext P p w) s = .next (s.done s.arch [] (.uint (uext P p w))) := if_pos ⟨hw, hp⟩

theorem exec_ppSext {p w : Nat} (hw : 2 ≤ w) (hp : p + w ≤ 36) (P : Packet) (s : State) :
    exec (.ppSext P p w) s = .next (s.done s.arch [] (.sint (sext P p w))) := if_pos ⟨hw, hp⟩

theorem exec_ppUnpack (P : Packet) (s : State) : exec (.ppUnpack P) s = .next (s.done s.arch [] (.fields (unpack P))) := rfl

theorem exec_ppCheck (c0 : BitVec 1) (c1 : BitVec 4) (ch : BitVec 2) (h : BitVec 8) (s : State) :
    exec (.ppCheck c0 c1 ch h) s = .next (s.done s.arch [] (.rej (check c0 c1 ch h))) := rfl

theorem exec_ppMkmsg {ch : BitVec 2} {h : BitVec 8} (hch : ch.toNat ≤ 2) (hh : h.toNat ≤ 100) (id : BitVec 8) (b : BitVec 1)
    (t : BitVec 12) (s : State) :
    exec (.ppMkmsg id b ch t h) s = .next (s.done s.arch [] (.msg (mkMsg id b ch t h))) :=
  if_pos (legalFields_eq_true hch hh)

theorem exec_ppParseAccept (id : BitVec 8) (b : BitVec 1) (ch : BitVec 2) (t : BitVec 12) (h : BitVec 8) (s : State) :
    exec (.ppParseAccept id b ch t h) s = .next (s.done s.arch [] (.parsed (parse (packetOf id b 0 ch t 15 h)))) := rfl

theorem exec_ppParseReject (P : Packet) (s : State) :
    exec (.ppParseReject P) s = .next (s.done s.arch [] (.parsed (parse P))) := rfl

end Sys2Proof.Machine
end

section
/-! PROOFS. The obligations on the packet parser's operations (R131 to R137). -/

namespace Sys2Proof.Proofs
open Sys2Proof Sys2Proof.Machine

/-- Settles O21: the field is the sum of its bits by weight (`toNat_eq_sum_bits`), and its bits are read off the packet. -/
theorem unsignedExtract : Obligations.UnsignedExtract := by
  intro P p w s hw hp
  have hexec := exec_ppUext hw hp P s
  exact ⟨_, hexec, congrArg Output.uint (uext_eq_sum hp), rfl, rfl, exec_keeps hexec⟩

/-- Settles O22: the two's complement value of the field, whose sign bit is `s[p]` (`sext_eq_ite`). -/
theorem signedExtract : Obligations.SignedExtract := by
  intro P p w s hw hp
  have hw1 : 1 ≤ w := Nat.le_of_succ_le hw
  have hexec := exec_ppSext hw hp P s
  exact ⟨_, uext P p w, hexec, exec_ppUext hw1 hp P s, congrArg Output.sint (sext_eq_ite hw1 hp), rfl, rfl, exec_keeps hexec⟩

/-- Settles O23: the positions are those of `unpack`; that the fields tile the packet is `packetOf_unpack`. -/
theorem unpackGivesSevenFields : Obligations.UnpackGivesSevenFields := by
  intro P s
  have hexec := exec_ppUnpack P s
  exact ⟨_, unpack P, hexec, rfl, rfl, rfl, rfl, rfl, rfl, rfl, rfl, packetOf_unpack P, rfl, rfl, exec_keeps hexec⟩

/-- Settles O24 by `check_getLsbD_iff`. -/
theorem fourChecks : Obligations.FourChecks := by
  intro c0 c1 ch h s
  have hexec := exec_ppCheck c0 c1 ch h s
  obtain ⟨hconst0, hconst1, hchannel, hhumidity⟩ := check_getLsbD_iff c0 c1 ch h
  exact ⟨_, _, hexec, rfl, hconst0, hconst1, hchannel, hhumidity, rfl, rfl, exec_keeps hexec⟩

/-- Settles O25: legal fields keep `PP.MKMSG` within its rule, and the channel's offset within two bits. -/
theorem messageWordHoldsTheFields : Obligations.MessageWordHoldsTheFields := by
  intro id b ch t h s hch hh
  have hexec := exec_ppMkmsg hch hh id b t s
  obtain ⟨hid, hbattery, -, htemperature, hhumidity⟩ := mkMsg_fields id b ch t h
  exact ⟨_, _, hexec, rfl, hid, hbattery, msgChannel_mkMsg_toNat hch id b t h, htemperature, hhumidity,
    validMsgWord_mkMsg hch hh id b t, rfl, rfl, exec_keeps hexec⟩

/-- Settles O26: the accepting row is `packetOf` of legal fields, whose checks all pass; every other packet is rejected with the
vector of its checks (`parse_cases`). -/
theorem parseAcceptsOrRejects : Obligations.ParseAcceptsOrRejects := by
  constructor
  · intro id b ch t h s hch hh
    have hexec := exec_ppParseAccept id b ch t h s
    obtain ⟨hid, hbattery, -, htemperature, hhumidity⟩ := mkMsg_fields id b ch t h
    exact ⟨decodePacket_packetOf hch hh id b t, _, _, hexec, congrArg Output.parsed (parse_packetOf hch hh id b t),
      hid, hbattery, msgChannel_mkMsg_toNat hch id b t h, htemperature, hhumidity, validMsgWord_mkMsg hch hh id b t,
      rfl, rfl, exec_keeps hexec⟩
  · intro P s hP
    have hexec := exec_ppParseReject P s
    obtain ⟨hacc, -⟩ | ⟨-, hne, hparse⟩ := parse_cases P
    · exact absurd (hacc.symm.trans hP) Bool.noConfusion
    · obtain ⟨hconst0, hconst1, hchannel, hhumidity⟩ := check_getLsbD_iff (P.extractLsb' 26 1) (P.extractLsb' 8 4)
        (P.extractLsb' 24 2) (P.extractLsb' 0 8)
      have hbit : P.extractLsb' 26 1 ≠ 0 ↔ P.getLsbD 26 = true := by
        rw [BitVec.getLsbD_eq_extractLsb', beq_iff_eq]
        generalize P.extractLsb' 26 1 = c
        revert c; decide
      exact ⟨decodePacket_of_not_accepted hP, _, _, hexec, congrArg Output.parsed hparse, hne, hconst0.trans hbit, hconst1,
        hchannel, hhumidity, rfl, rfl, exec_keeps hexec⟩

end Sys2Proof.Proofs
end

section
/-! PROOFS. The voter: which branch of `VT.TALLY` the table selects (R163), and what the voter's operations answer. -/

namespace Sys2Proof.Machine

/-! The tally, branch by branch -/

/-- Two indices that are both the first with a property are the same index. -/
theorem first_index_unique {es : List Entry} {q : Entry → Prop} {i j : Nat} {x y : Entry}
    (hi : es[i]? = some x) (hx : q x) (hilt : ∀ k < i, ∀ z, es[k]? = some z → ¬ q z)
    (hj : es[j]? = some y) (hy : q y) (hjlt : ∀ k < j, ∀ z, es[k]? = some z → ¬ q z) : i = j := by
  rcases Nat.lt_trichotomy i j with hlt | heq | hgt
  · exact absurd hx (hjlt i hlt x hi)
  · exact heq
  · exact absurd hy (hilt j hgt y hj)

/-- With an entry for the message, the first such entry decides. -/
theorem tally_of_first {m : MsgWord} {a : Arch} {i : Nat} {e : Entry} (hi : a.table[i]? = some e) (he : e.msg = m)
    (hfirst : ∀ j < i, ∀ x, a.table[j]? = some x → x.msg ≠ m) (p : Config.Params) :
    (atMax p e.cnt = true → tally p m a = raise .fVtSat a) ∧
      (atMax p e.cnt = false → tally p m a = { a with table := a.table.set i ⟨m, e.cnt + 1⟩ }) := by
  obtain ⟨j, x, hj, hx, hjfirst, hcases⟩ | ⟨hnew, -⟩ := tally_cases p m a
  · obtain rfl : i = j := first_index_unique hi he hfirst hj hx hjfirst
    obtain rfl : e = x := Option.some.inj (hi.symm.trans hj)
    obtain ⟨hmax, htally⟩ | ⟨hmax, htally⟩ := hcases <;> simp [hmax, htally]
  · exact absurd he (hnew e (List.mem_of_getElem? hi))

/-- With no entry for the message, the room in the table decides. -/
theorem tally_of_new {m : MsgWord} {a : Arch} (hnew : ∀ e ∈ a.table, e.msg ≠ m) (p : Config.Params) :
    (hasRoom p a.vtN = true → tally p m a = { a with table := a.table ++ [⟨m, 1⟩] }) ∧
      (hasRoom p a.vtN = false → tally p m a = raise .fVtFull a) := by
  obtain ⟨j, x, hj, hx, -, -⟩ | ⟨-, hcases⟩ := tally_cases p m a
  · exact absurd hx (hnew x (List.mem_of_getElem? hj))
  · obtain ⟨hroom, htally⟩ | ⟨hroom, htally⟩ := hcases <;> simp [hroom, htally]

/-! What an operation answers -/

theorem exec_vtTally {m : MsgWord} (hm : validMsgWord m = true) (s : State) :
    exec (.vtTally m) s = .next (s.done (tally s.params m s.arch) [] .none) := if_pos hm

theorem exec_vtSelect_of_some {s : State} {e : Entry} (h : select s.arch.table = some e) :
    exec .vtSelect s = .next (s.done s.arch [] (.selected e.msg e.cnt)) := by
  simp only [exec, execVtSelect, h]

theorem exec_vtSelect_of_empty {s : State} (h : s.arch.table = []) : exec .vtSelect s = .fault .emptyVote := by
  simp only [exec, execVtSelect, (select_eq_none _).2 h]

theorem exec_vtClear (s : State) : exec .vtClear s = .next (s.done (vtClear s.arch) [] .none) := rfl

end Sys2Proof.Machine
end

section
/-! PROOFS. `vote_ref` in closed form (R165): its table is the distinct messages in first-seen order, each with its number of
occurrences, and its choice is the library's `List.argmax`, the first element of greatest value. -/

namespace Sys2Proof.Machine.Reference

/-! The choice -/

theorem bestOf_concat {α : Type} (t : List (α × Nat)) (x : α × Nat) :
    bestOf (t ++ [x]) = some ((bestOf t).elim x fun best => if x.2 > best.2 then x else best) := by
  cases t <;> simp [bestOf]

/-- The choice among elements paired with their values is the first element of greatest value. -/
theorem bestOf_map {α : Type} (f : α → Nat) (ms : List α) :
    bestOf (ms.map fun m => (m, f m)) = (ms.argmax f).map fun m => (m, f m) := by
  induction ms using List.reverseRecOn with
  | nil => rfl
  | append_singleton ms m ih =>
    rw [List.map_append, List.map_singleton, bestOf_concat, ih, List.argmax_concat]
    cases ms.argmax f with
    | none => rfl
    | some best =>
      by_cases hgt : f m > f best <;> simp [hgt]

theorem exists_argmax {α : Type} {ms : List α} (h : ms ≠ []) (f : α → Nat) : ∃ m, ms.argmax f = some m :=
  Option.ne_none_iff_exists'.1 (mt List.argmax_eq_none.1 h)

/-! The table -/

section
variable {α : Type} [DecidableEq α]

/-- One more message is a new distinct message exactly if it did not occur before. -/
theorem eraseDups_concat (ms : List α) (m : α) :
    (ms ++ [m]).eraseDups = if m ∈ ms then ms.eraseDups else ms.eraseDups ++ [m] := by
  rw [List.eraseDups_append]
  by_cases h : m ∈ ms
  · simp [List.removeAll, h]
  · simp [List.removeAll, h, List.eraseDups_cons]

theorem voteTable_concat (ms : List α) (m : α) : voteTable (ms ++ [m]) = countMessage (voteTable ms) m := by
  simp [voteTable]

theorem voteTable_eq (ms : List α) : voteTable ms = ms.eraseDups.map fun m => (m, ms.count m) := by
  induction ms using List.reverseRecOn with
  | nil => rfl
  | append_singleton ms m ih =>
    rw [voteTable_concat, ih, countMessage, eraseDups_concat]
    have hcount : ∀ x, (ms ++ [m]).count x = ms.count x + if m = x then 1 else 0 := by
      simp [List.count_append, List.count_singleton]
    by_cases h : m ∈ ms
    · simp only [hcount]
      rw [if_pos (by simpa using h), if_pos h, List.map_map]
      refine List.map_congr_left fun x _ => ?_
      by_cases hx : m = x
      · simp [hx]
      · simp [hx, Ne.symm hx]
    · rw [if_neg (by simpa using h), if_neg h, List.map_append]
      congr 1
      · refine List.map_congr_left fun x hx => ?_
        have hne : m ≠ x := fun hmx => h (hmx ▸ List.mem_eraseDups.1 hx)
        simp [hcount, hne]
      · simp [hcount, List.count_eq_zero_of_not_mem h]

/-- Dropping repetitions keeps the first element of greatest value, which never is a repetition. -/
theorem argmax_eraseDups (f : α → Nat) (ms : List α) : ms.eraseDups.argmax f = ms.argmax f := by
  induction ms using List.reverseRecOn with
  | nil => rfl
  | append_singleton ms m ih =>
    rw [eraseDups_concat, List.argmax_concat]
    split
    · next hm =>
      obtain ⟨w, hw⟩ := exists_argmax (List.ne_nil_of_mem hm) f
      rw [ih, hw]
      exact (if_neg (List.le_of_mem_argmax hm hw).not_gt).symm
    · rw [List.argmax_concat, ih]

theorem voteRef_eq (ms : List α) : voteRef ms = (ms.argmax ms.count).map fun m => (m, ms.count m) := by
  rw [voteRef, voteTable_eq, bestOf_map, argmax_eraseDups]

end

end Sys2Proof.Machine.Reference
end

section
/-! PROOFS. The obligations on the voter's operations and on `vote_ref` (R162 to R165). -/

namespace Sys2Proof.Proofs
open Sys2Proof Sys2Proof.Machine Sys2Proof.Machine.Reference

/-- Settles O31: the first entry with the message (`tally_of_first`) or, with none, the room left (`tally_of_new`) decides; the
literals of the statement are the bits of the two flags. -/
theorem tallyCountsOneOccurrence : Obligations.TallyCountsOneOccurrence := by
  intro m s hm
  have hexec := exec_vtTally hm s
  refine ⟨_, hexec, rfl, rfl, exec_keeps hexec, fun i e hi he hfirst => ?_, fun hnew => ?_⟩
  · obtain ⟨hsat, hcounted⟩ := tally_of_first hi he hfirst s.params
    rw [← atMax_iff, Bool.not_eq_true]
    exact ⟨hsat, hcounted⟩
  · obtain ⟨hadded, hfull⟩ := tally_of_new hnew s.params
    rw [← hasRoom_iff, Bool.not_eq_true]
    exact ⟨hadded, hfull⟩

/-- Settles O32: what the model's `select_spec` says of the selected entry. -/
theorem selectReturnsFirstMaximum : Obligations.SelectReturnsFirstMaximum := by
  refine ⟨fun s hne => ?_, fun s => exec_vtSelect_of_empty⟩
  obtain ⟨e, he⟩ := Option.ne_none_iff_exists'.1 (mt (select_eq_none s.arch.table).1 hne)
  obtain ⟨i, hi, hmax, hfirst⟩ := select_spec he
  have hexec := exec_vtSelect_of_some he
  exact ⟨_, i, e, hexec, hi, rfl, hmax, hfirst, rfl, rfl, exec_keeps hexec⟩

/-- Settles O35: by `voteRef_eq` the winner is `List.argmax` of the number of occurrences, and the library says that no element has
a greater value and none of the same value comes earlier. -/
theorem voteRefIsFirstMaximum : Obligations.VoteRefIsFirstMaximum := by
  intro α _ ms hne
  obtain ⟨m, hm⟩ := exists_argmax hne ms.count
  refine ⟨m, _, by rw [voteRef_eq, hm]; rfl, List.argmax_mem hm, rfl, fun n hn => ?_⟩
  have hle : ms.count n ≤ ms.count m := List.le_of_mem_argmax hn hm
  rcases hle.lt_or_eq with hlt | heq
  · exact .inl hlt
  · exact .inr ⟨heq, List.index_of_argmax hm hn heq.ge⟩

/-- Settles O33: the one register written is the table. -/
theorem clearEmptiesTheTable : Obligations.ClearEmptiesTheTable := by
  intro s
  have hexec := exec_vtClear s
  exact ⟨_, hexec, rfl, rfl, rfl, rfl, exec_keeps hexec⟩

end Sys2Proof.Proofs
end

section
/-! PROOFS. The command word: its code and its data, and the command the code selects (R71, R72). -/

namespace Sys2Proof

/-- A command row fixes the code and masks the data off. -/
theorem rowMatches_code_append (c k : BitVec 2) (d : Byte) : rowMatches (c ++ d) (k ++ 0#8) 0x300#10 = (c == k) := by
  have hmask : 0x300#10 = BitVec.allOnes 2 ++ 0#8 := rfl
  have hand : (c ++ d) &&& 0x300#10 = c ++ 0#8 := by
    rw [hmask, BitVec.and_append, BitVec.and_allOnes, BitVec.and_zero]
  have hcode : c ++ 0#8 = k ++ 0#8 ↔ c = k := by
    refine ⟨fun e => ?_, fun e => e ▸ rfl⟩
    have h := congrArg (BitVec.extractLsb' 8 2) e
    rwa [BitVec.extractLsb'_append_eq_left, BitVec.extractLsb'_append_eq_left] at h
  rw [rowMatches, hand, Bool.eq_iff_iff, beq_iff_eq, beq_iff_eq, hcode]

/-- The code alone selects the command, and the data are its argument. -/
theorem decodeCW_append (c : BitVec 2) (d : Byte) :
    decodeCW (c ++ d) = if c = 0 then .nop d else if c = 1 then .byte d else if c = 2 then .endCmd d else .rsvd d := by
  have hnop : rowMatches (c ++ d) 0x000#10 0x300#10 = (c == 0) := rowMatches_code_append c 0 d
  have hbyte : rowMatches (c ++ d) 0x100#10 0x300#10 = (c == 1) := rowMatches_code_append c 1 d
  have hend : rowMatches (c ++ d) 0x200#10 0x300#10 = (c == 2) := rowMatches_code_append c 2 d
  have hdata : (c ++ d).extractLsb' 0 8 = d := BitVec.extractLsb'_append_eq_right
  simp only [decodeCW, hdata, hnop, hbyte, hend, beq_iff_eq]

end Sys2Proof

namespace Sys2Proof.Machine

/-- A command word is its code in front of its data. -/
theorem cmdCode_append_data (w : CmdWord) : cmdCode w ++ w.extractLsb' 0 8 = w := by
  rw [cmdCode, BitVec.extractLsb'_append_extractLsb'_eq_extractLsb' (by rfl)]
  exact BitVec.extractLsb'_eq_self

theorem decodeCW_of_cmdCode {w : CmdWord} {c : BitVec 2} (h : cmdCode w = c) :
    decodeCW w = if c = 0 then .nop (w.extractLsb' 0 8) else if c = 1 then .byte (w.extractLsb' 0 8)
      else if c = 2 then .endCmd (w.extractLsb' 0 8) else .rsvd (w.extractLsb' 0 8) := by
  rw [← decodeCW_append, ← h, cmdCode_append_data]

end Sys2Proof.Machine
end

section
/-! PROOFS. What the four commands answer, what a sample step hands to the parser and the voter (R195), and what a `BYTE` leaves of
the result and of `F_CMD` (R192). -/

namespace Sys2Proof.Machine

/-! What a command answers -/

theorem exec_nop (data : Byte) (s : State) : exec (.nop data) s = .next (s.done s.arch [] .none) := rfl

theorem exec_byte (d : Byte) (s : State) :
    exec (.byte d) s = .next (s.done (feedByte s.params d s.arch).1 (feedByte s.params d s.arch).2 .none) := rfl

theorem exec_endCmd (data : Byte) (s : State) : exec (.endCmd data) s = .next (s.done (endWindow s.arch) [] .none) := rfl

theorem exec_rsvd (data : Byte) (s : State) : exec (.rsvd data) s = .next (s.done (raise .fCmd s.arch) [] .none) := rfl

/-! One sample with the parse and the tally inside -/

theorem onPacket_of_accept {P : Packet} {m : MsgWord} (h : parse P = .accept m) (p : Config.Params) (a : Arch) :
    onPacket p P a = tally p m a := by
  rw [onPacket, h]

theorem onPacket_of_reject {P : Packet} {r : RejVec} (h : parse P = .reject r) (p : Config.Params) (a : Arch) :
    onPacket p P a = a := by
  rw [onPacket, h]

theorem chainStep_of_quiet {b : Bool} {a a' : Arch} (h : sampleStep b a = (a', none)) (p : Config.Params)
    (evs : List PacketEvent) : chainStep p (a, evs) b = (a', evs) := by
  rw [chainStep, h]

theorem chainStep_of_emit {b : Bool} {a a' : Arch} {P : Packet} (h : sampleStep b a = (a', some P)) (p : Config.Params)
    (evs : List PacketEvent) : chainStep p (a, evs) b = (onPacket p P a', evs ++ [eventOf P (parse P)]) := by
  rw [chainStep, h]

/-! What a `BYTE` leaves (R192) -/

theorem feedByte_eq_foldl_bits (p : Config.Params) (d : Byte) (a : Arch) :
    feedByte p d a = [7, 6, 5, 4, 3, 2, 1, 0].foldl (fun r k => chainStep p r (d.getLsbD k)) (a, []) := rfl

theorem feedByte_events_length_le (p : Config.Params) (d : Byte) (a : Arch) : (feedByte p d a).2.length ≤ 1 := by
  obtain ⟨hev, -⟩ | ⟨-, hev, -⟩ := feedByte_cases p d a <;> simp [hev]

/-- A tally raises the voter's flags only. -/
theorem tally_flag_fCmd (p : Config.Params) (m : MsgWord) (a : Arch) : (tally p m a).flag .fCmd = a.flag .fCmd := by
  obtain ⟨_, _, -, -, -, ⟨-, h⟩ | ⟨-, h⟩⟩ | ⟨-, ⟨-, h⟩ | ⟨-, h⟩⟩ := tally_cases p m a <;> rw [h]
  · simp [raise_flag]
  · rfl
  · rfl
  · simp [raise_flag]

/-- The result of the previous window and `F_CMD` are the same in both states. -/
def SameResult (a b : Arch) : Prop :=
  b.resultValid = a.resultValid ∧ b.result = a.result ∧ b.resultCnt = a.resultCnt ∧ b.flag .fCmd = a.flag .fCmd

theorem SameResult.trans {a b c : Arch} (hab : SameResult a b) (hbc : SameResult b c) : SameResult a c := by
  obtain ⟨hv, hr, hn, hf⟩ := hab
  obtain ⟨hv', hr', hn', hf'⟩ := hbc
  exact ⟨hv'.trans hv, hr'.trans hr, hn'.trans hn, hf'.trans hf⟩

/-- The result registers and `STATUS` lie behind PD. -/
theorem sameResult_of_pdFlush_eq {a b : Arch} (h : pdFlush b = pdFlush a) : SameResult a b := by
  obtain ⟨-, hstatus, hresult, hcount⟩ := (pdFlush_eq_iff b a).1 h
  exact ⟨congrArg (BitVec.getLsbD · 0) hstatus, hresult, hcount, congrArg (BitVec.getLsbD · 1) hstatus⟩

theorem onPacket_sameResult (p : Config.Params) (P : Packet) (a : Arch) : SameResult a (onPacket p P a) := by
  obtain ⟨m, -, h⟩ | ⟨r, -, h⟩ := onPacket_cases p P a <;> rw [h]
  · obtain ⟨-, -, -, hresult, hcount, hvalid⟩ := tally_frame p m a
    exact ⟨hvalid, hresult, hcount, tally_flag_fCmd p m a⟩
  · exact ⟨rfl, rfl, rfl, rfl⟩

theorem feedByte_sameResult (p : Config.Params) (d : Byte) (a : Arch) : SameResult a (feedByte p d a).1 := by
  obtain ⟨-, h⟩ | ⟨-, -, h⟩ := feedByte_cases p d a
  · exact sameResult_of_pdFlush_eq h
  · exact (onPacket_sameResult p a.buf (pdFlush a)).trans (sameResult_of_pdFlush_eq h)

/-! What `END` leaves (R193), and the reads of the ports while `RESULT_VALID = 1` (R29) -/

theorem endWindow_atWindowStart (a : Arch) : (endWindow a).atWindowStart :=
  ⟨endWindow_cnt a, endWindow_buf a, endWindow_len a, endWindow_table a⟩

theorem readPort_result_of_valid {a : Arch} (hv : a.resultValid = true) : readPort .result a = .ok (.result a.result) :=
  if_pos hv

theorem readPort_resultCnt_of_valid {a : Arch} (hv : a.resultValid = true) :
    readPort .resultCnt a = .ok (.resultCnt a.resultCnt) :=
  if_pos hv

end Sys2Proof.Machine
end

section
/-! PROOFS. The obligations on the host commands (R191 to R195). -/

namespace Sys2Proof.Proofs
open Sys2Proof Sys2Proof.Machine

/-- Settles O37: the eight steps are `feedByte` bit by bit, and what it leaves follows from the one packet it can take
(`feedByte_cases`). -/
theorem byteFeedsEightSamples : Obligations.ByteFeedsEightSamples := by
  refine ⟨fun d => decodeCW_append 0b01#2 d, fun d s => ?_⟩
  have hexec := exec_byte d s
  obtain ⟨hvalid, hresult, hcount, hfCmd⟩ := feedByte_sameResult s.params d s.arch
  exact ⟨_, hexec, feedByte_eq_foldl_bits s.params d s.arch, feedByte_events_length_le s.params d s.arch, hvalid, hresult,
    hcount, hfCmd, rfl, exec_keeps hexec⟩

/-- Settles O40: an entry is selected exactly when the table has one (`endWindow_result`), and it is the first maximum
(`select_spec`). -/
theorem endPublishesAndClears : Obligations.EndPublishesAndClears := by
  refine ⟨fun w hw => ⟨_, decodeCW_of_cmdCode hw⟩, fun data s => ?_⟩
  have hexec := exec_endCmd data s
  refine ⟨_, hexec, endWindow_atWindowStart s.arch, fun hne => ?_, fun hempty => ?_, fun f => endWindow_flag f s.arch, rfl, rfl,
    exec_keeps hexec⟩
  · obtain ⟨e, hselect, hvalid, hresult, hcount⟩ | ⟨hnone, -⟩ := endWindow_result s.arch
    · obtain ⟨i, hi, hmax, hfirst⟩ := select_spec hselect
      exact ⟨i, e, hi, hmax, hfirst, hresult ▸ readPort_result_of_valid hvalid, hcount ▸ readPort_resultCnt_of_valid hvalid⟩
    · exact absurd ((select_eq_none _).1 hnone) hne
  · obtain ⟨e, hselect, -⟩ | ⟨-, hvalid, -⟩ := endWindow_result s.arch
    · simp [(select_eq_none _).2 hempty] at hselect
    · exact ⟨hvalid, readPort_of_not_resultValid hvalid (by decide)⟩

/-- Settles O36: the code selects `NOP`, which writes no register. -/
theorem nopChangesNothing : Obligations.NopChangesNothing := by
  refine ⟨fun w hw => ⟨_, decodeCW_of_cmdCode hw⟩, fun data s => ?_⟩
  have hexec := exec_nop data s
  exact ⟨_, hexec, rfl, rfl, rfl, exec_keeps hexec⟩

/-- Settles O38: what the sample step returns and what the parse of it answers select the case; the event's fields are read off by
`packetEvent_fields`. -/
theorem emittedPacketsAreParsedAndTallied : Obligations.EmittedPacketsAreParsedAndTallied := by
  intro p b a a' evs
  refine ⟨fun h => chainStep_of_quiet h p evs, fun P m h hparse => ?_, fun P r h hparse => ?_⟩
  · refine ⟨packetEvent true 0 m P, ?_, packetEvent_fields true 0 m P⟩
    rw [chainStep_of_emit h, onPacket_of_accept hparse, hparse, eventOf]
  · refine ⟨packetEvent false r 0 P, ?_, packetEvent_fields false r 0 P⟩
    rw [chainStep_of_emit h, onPacket_of_reject hparse, hparse, eventOf]

/-- Settles O41: raising a flag sets that bit of `STATUS` and no other (`raise_flag`). -/
theorem reservedCodeSetsFCmd : Obligations.ReservedCodeSetsFCmd := by
  refine ⟨fun w hw => ⟨_, decodeCW_of_cmdCode hw⟩, fun data s => ?_⟩
  have hexec := exec_rsvd data s
  have hflag := fun f => raise_flag .fCmd f s.arch
  exact ⟨_, hexec, rfl, by simp [hflag], by simp [hflag], by simp [hflag], raise_resultValid .fCmd s.arch, rfl, rfl,
    exec_keeps hexec⟩

end Sys2Proof.Proofs
end

section
/-! PROOFS. The fault flags (R216): no operation and no step but the reset clears one, and a command word always runs. -/

namespace Sys2Proof.Machine

/-! A set flag stays set. The shared operations first, then what an operation may leave, then a step -/

theorem tally_sticky {f : FaultFlag} {a : Arch} (h : a.flag f = true) (p : Config.Params) (m : MsgWord) :
    (tally p m a).flag f = true := by
  obtain ⟨_, _, -, -, -, ⟨-, e⟩ | ⟨-, e⟩⟩ | ⟨-, ⟨-, e⟩ | ⟨-, e⟩⟩ := tally_cases p m a <;> rw [e]
  · exact raise_sticky h
  · exact h
  · exact h
  · exact raise_sticky h

theorem onPacket_sticky {f : FaultFlag} {a : Arch} (h : a.flag f = true) (p : Config.Params) (P : Packet) :
    (onPacket p P a).flag f = true := by
  obtain ⟨m, -, e⟩ | ⟨_, -, e⟩ := onPacket_cases p P a <;> rw [e]
  · exact tally_sticky h p m
  · exact h

@[simp] theorem pdFlush_flag (f : FaultFlag) (a : Arch) : (pdFlush a).flag f = a.flag f := rfl

/-- The flags lie behind PD. -/
theorem flag_eq_of_pdFlush_eq {a b : Arch} (h : pdFlush a = pdFlush b) (f : FaultFlag) : a.flag f = b.flag f := by
  rw [← pdFlush_flag f a, h, pdFlush_flag]

theorem feedByte_sticky {f : FaultFlag} {a : Arch} (h : a.flag f = true) (p : Config.Params) (d : Byte) :
    (feedByte p d a).1.flag f = true := by
  obtain ⟨-, e⟩ | ⟨-, -, e⟩ := feedByte_cases p d a <;> rw [flag_eq_of_pdFlush_eq e f]
  · exact h
  · exact onPacket_sticky ((pdFlush_flag f a).trans h) p a.buf

theorem Leaves.sticky {i : Instr} {s : State} {a : Arch} {ev : List PacketEvent} (hl : Leaves i s a ev) {f : FaultFlag}
    (h : s.arch.flag f = true) : a.flag f = true := by
  cases hl with
  | byte d => exact feedByte_sticky h s.params d
  | endCmd => exact (endWindow_flag f s.arch).trans h
  | rsvd => exact raise_sticky h
  | tally m => exact tally_sticky h s.params m
  | same | zero | noise | short | long | sync | flush | clear => exact h

theorem exec_sticky {i : Instr} {s t : State} (hexec : exec i s = .next t) {f : FaultFlag} (h : s.arch.flag f = true) :
    t.arch.flag f = true := by
  obtain ⟨_, _, _, rfl, hl⟩ := exec_next_cases hexec
  exact hl.sticky h

theorem step_sticky_or_reset {s t : State} (hstep : step s = .next t) {f : FaultFlag} (h : s.arch.flag f = true) :
    t.arch.flag f = true ∨ ∃ rest, s.pending = .reset :: rest := by
  obtain ⟨-, rfl⟩ | ⟨_, _, hexec, -⟩ | ⟨rest, hp, -⟩ | ⟨_, _, _, -, -, rfl⟩ := step_next_cases hstep
  · exact .inl h
  · exact .inl (exec_sticky hexec h)
  · exact .inr ⟨rest, hp⟩
  · exact .inl h

/-! A command word runs (R190) -/

theorem step_of_command {s : State} {w : CmdWord} {rest : List Stimulus} (hp : s.pending = .command w :: rest) :
    step s = exec (decodeCW w) { s with pending := rest } := by
  simp only [step, fetch, hp]

/-- Each of the four commands answers a next state from every state. -/
theorem exec_decodeCW_runs (w : CmdWord) (s : State) : ∃ t, exec (decodeCW w) s = .next t := by
  rw [decodeCW_of_cmdCode rfl]
  split_ifs
  · exact ⟨_, exec_nop _ s⟩
  · exact ⟨_, exec_byte _ s⟩
  · exact ⟨_, exec_endCmd _ s⟩
  · exact ⟨_, exec_rsvd _ s⟩

end Sys2Proof.Machine
end

section
/-! PROOFS. The obligation on the fault flags (R216). -/

namespace Sys2Proof.Proofs
open Sys2Proof Sys2Proof.Machine

/-- Settles O43: what an operation may leave keeps every set flag (`Leaves.sticky`), a step runs one operation or takes the reset
input, and no command refuses or faults. -/
theorem faultFlagsAreSticky : Obligations.FaultFlagsAreSticky := by
  refine ⟨fun i s t f hexec hset => exec_sticky hexec hset, fun s t f hstep hset hclear => ?_, fun s w rest hp => ?_⟩
  · exact (step_sticky_or_reset hstep hset).resolve_left (by simp [hclear])
  · rw [step_of_command hp]
    exact exec_decodeCW_runs w _

end Sys2Proof.Proofs
end

section
/-! PROOFS. Words and operations: a word in bytes and back (log entry 12), the word of an operation and the operation of a word
(R72, R74, R77, R94). -/

namespace Sys2Proof
open Sys2Proof.Machine

/-! A word in bytes -/

theorem natOfBytes_bytesOf (x n : Nat) : natOfBytes (bytesOf x n) = x % 256 ^ n := by
  induction n generalizing x with
  | zero => simp [bytesOf, natOfBytes, Nat.mod_one]
  | succ n ih =>
    rw [bytesOf, natOfBytes, ih, BitVec.toNat_ofNat, pow_succ' 256 n]
    exact Nat.mod_mul.symm

/-- Bytes enough for `n` bits hold every word of `n` bits. -/
theorem fitWord_bytesOf {n k : Nat} (hk : n ≤ 8 * k) (w : BitVec n) : fitWord n (natOfBytes (bytesOf w.toNat k)) = .ok w := by
  have hlt : w.toNat < 256 ^ k :=
    calc w.toNat < 2 ^ n := w.isLt
      _ ≤ 2 ^ (8 * k) := Nat.pow_le_pow_right (by decide) hk
      _ = 256 ^ k := Nat.pow_mul 2 8 k
  rw [natOfBytes_bytesOf, Nat.mod_eq_of_lt hlt, fitWord, if_pos w.isLt, BitVec.ofNat_toNat, BitVec.setWidth_eq]

/-- The bytes of a word are read as that word: their number tells the format. -/
theorem readWord_bytes (w : FormatWord) : readWord w.bytes = .ok w := by
  cases w with
  | cw w => exact congrArg (Except.map FormatWord.cw) (fitWord_bytesOf (k := 2) (by decide) w)
  | ew w => exact congrArg (Except.map FormatWord.ew) (fitWord_bytesOf (k := 1) (by decide) w)
  | packet P => exact congrArg (Except.map FormatWord.packet) (fitWord_bytesOf (k := 5) (by decide) P)

theorem decodeBytes_bytes (w : FormatWord) : decodeBytes w.bytes = .ok (decodeWord w) := by
  rw [decodeBytes, readWord_bytes, Except.map]

/-! From an operation to its word and back -/

theorem legalFields_iff (ch : BitVec 2) (h : BitVec 8) : legalFields ch h = true ↔ ch.toNat ≤ 2 ∧ h.toNat ≤ 100 := by
  rw [legalFields, Bool.and_eq_true, decide_eq_true_iff, decide_eq_true_iff]
  rfl

/-- The accepted packets by their unpacked fields (R90). -/
theorem acceptedPacket_iff (P : Packet) : acceptedPacket P = true ↔
    (unpack P).const0 = 0 ∧ (unpack P).const1 = 15 ∧ (unpack P).channelRaw.toNat ≤ 2 ∧ (unpack P).humidity.toNat ≤ 100 := by
  rw [acceptedPacket_eq_unpack, Bool.and_eq_true, Bool.and_eq_true, decide_eq_true_iff, decide_eq_true_iff, legalFields_iff,
    and_assoc]

/-- The micro-operations are the operations without a word. -/
theorem isNone_encode (i : Instr) : (encode i).isNone = i.isMicroOp := by
  cases i <;> rfl

theorem decodeWord_of_encode {i : Instr} {w : FormatWord} (hwf : i.wellFormed = true) (h : encode i = some w) :
    decodeWord w = i := by
  cases i with
  | nop d => cases h; exact decodeCW_append 0 d
  | byte d => cases h; exact decodeCW_append 1 d
  | endCmd d => cases h; exact decodeCW_append 2 d
  | rsvd d => cases h; exact decodeCW_append 3 d
  | pdZero c => cases h; exact decodeEW_zero_append c
  | pdShort2to3 c | pdLong6to7 c | pdLong8to9 c | pdSync12to15 c => cases h; revert c; decide
  | pdNoise | pdShort1 | pdShort4 | pdLong5 | pdLong10 | pdSync11 => cases h; rfl
  | ppParseAccept id b ch t hum =>
    cases h
    obtain ⟨hch, hh⟩ := (legalFields_iff ch hum).1 hwf
    exact decodePacket_packetOf hch hh id b t
  | ppParseReject P => cases h; exact decodePacket_of_not_accepted (by simpa [Instr.wellFormed] using hwf)
  | pdFlush | ppUext | ppSext | ppUnpack | ppCheck | ppMkmsg | vtTally | vtSelect | vtClear => cases h

/-! From a word to its operation and back -/

theorem decodeCW_cases (w : CmdWord) :
    (∃ d : Byte, w = 0#2 ++ d ∧ decodeCW w = .nop d) ∨ (∃ d : Byte, w = 1#2 ++ d ∧ decodeCW w = .byte d) ∨
      (∃ d : Byte, w = 2#2 ++ d ∧ decodeCW w = .endCmd d) ∨ ∃ d : Byte, w = 3#2 ++ d ∧ decodeCW w = .rsvd d := by
  have hcode : ∀ c : BitVec 2, c = 0 ∨ c = 1 ∨ c = 2 ∨ c = 3 := by decide
  have hw := (cmdCode_append_data w).symm
  obtain hc | hc | hc | hc := hcode (cmdCode w) <;> rw [hc] at hw
  · exact .inl ⟨_, hw, decodeCW_of_cmdCode hc⟩
  · exact .inr (.inl ⟨_, hw, decodeCW_of_cmdCode hc⟩)
  · exact .inr (.inr (.inl ⟨_, hw, decodeCW_of_cmdCode hc⟩))
  · exact .inr (.inr (.inr ⟨_, hw, decodeCW_of_cmdCode hc⟩))

theorem encode_decodeCW (w : CmdWord) : (decodeCW w).wellFormed = true ∧ encode (decodeCW w) = some (.cw w) := by
  obtain ⟨d, rfl, h⟩ | ⟨d, rfl, h⟩ | ⟨d, rfl, h⟩ | ⟨d, rfl, h⟩ := decodeCW_cases w <;> rw [h] <;> exact ⟨rfl, rfl⟩

theorem encode_decodeEW (w : EventWord) : (decodeEW w).wellFormed = true ∧ encode (decodeEW w) = some (.ew w) := by
  revert w; decide

theorem encode_decodePacket (P : Packet) :
    (decodePacket P).wellFormed = true ∧ encode (decodePacket P) = some (.packet P) := by
  cases hP : acceptedPacket P with
  | false =>
    rw [decodePacket_of_not_accepted hP]
    exact ⟨by simp [Instr.wellFormed, hP], rfl⟩
  | true =>
    obtain ⟨hconst0, hconst1, hch, hh⟩ := (acceptedPacket_iff P).1 hP
    have htile := packetOf_unpack P
    rw [hconst0, hconst1] at htile
    rw [decodePacket_of_accepted hP]
    exact ⟨legalFields_eq_true hch hh, congrArg (some ∘ FormatWord.packet) htile⟩

end Sys2Proof
end

section
/-! PROOFS. The obligations on encoding and decoding (spec/30_encoding.md). -/

namespace Sys2Proof.Proofs
open Sys2Proof Sys2Proof.Machine

/-- Settles O2: an operation with a word is none of the micro-operations (`isNone_encode`), and its word reads back as a word
(`decodeWord_of_encode`) and as bytes (`decodeBytes_bytes`). -/
theorem decodeOfEncode : Obligations.DecodeOfEncode := by
  intro i hwf
  have hmicro := isNone_encode i
  cases hw : encode i with
  | none => exact .inl ⟨by rw [← hmicro, hw]; rfl, rfl⟩
  | some w =>
    have hdecode := decodeWord_of_encode hwf hw
    exact .inr ⟨by rw [← hmicro, hw]; rfl, w, rfl, hdecode, by rw [decodeBytes_bytes, hdecode]⟩

/-- Settles O3, format by format. -/
theorem encodeOfDecode : Obligations.EncodeOfDecode := by
  intro w
  cases w with
  | cw w => exact encode_decodeCW w
  | ew w => exact encode_decodeEW w
  | packet P => exact encode_decodePacket P

end Sys2Proof.Proofs
end

section
/-! PROOFS. The invariants of the machine: of PD state (R24), of VT state (R26), of the result (R29) and of the events (R88), each
kept by the shared operations and then by all that an operation may leave (`Leaves`). -/

namespace Sys2Proof.Machine
open Sys2Proof.Config

/-! PD state -/

theorem pdInv_of_empty {a : Arch} (hcnt : a.cnt = 0) (hbuf : a.buf = 0) (hlen : a.len = 0) : PdInv a := by
  simp [PdInv, hcnt, hbuf, hlen]

theorem PdInv.congr {a b : Arch} (h : PdInv a) (hcnt : b.cnt = a.cnt) (hbuf : b.buf = a.buf) (hlen : b.len = a.len) :
    PdInv b := by
  rwa [PdInv, hcnt, hbuf, hlen]

/-- `PD.SHORT` and `PD.LONG`: one more bit of the numeral, until the buffer overflows. -/
theorem PdInv.append {a : Arch} (h : PdInv a) (b : Bool) : PdInv { append b a with cnt := 0 } := by
  obtain ⟨-, -, hbuf⟩ := h
  have hbit : b.toNat ≤ 1 := Bool.toNat_le b
  refine ⟨Nat.zero_le _, ?_, ?_⟩
  · rw [append_len_toNat]; omega
  · rw [append_len_toNat, append_buf_toNat]
    intro hlen
    have hlen' : a.len.toNat + 1 ≤ 36 := by omega
    have hpow : 2 ^ (a.len.toNat + 1) = 2 * 2 ^ a.len.toNat := Nat.pow_succ'
    rw [Nat.min_eq_left (by omega), hpow]
    refine (Nat.mod_le _ _).trans_lt ?_
    have := hbuf (by omega)
    omega

theorem PdInv.pdZero {a : Arch} (h : PdInv a) : PdInv (pdZero a) := by
  obtain ⟨-, hlen, hbuf⟩ := h
  exact ⟨by rw [pdZero_cnt_toNat]; omega, hlen, hbuf⟩

theorem PdInv.pdNoise {a : Arch} (h : PdInv a) : PdInv (pdNoise a) := by
  obtain ⟨-, hlen, hbuf⟩ := h
  exact ⟨Nat.zero_le _, hlen, hbuf⟩

theorem pdInv_pdSync (a : Arch) : PdInv (pdSync a) := pdInv_of_empty rfl rfl rfl

theorem PdInv.sampleStep {a : Arch} (h : PdInv a) (s : Bool) : PdInv (sampleStep s a).1 := by
  obtain ⟨-, e⟩ | ⟨-, -, e⟩ | ⟨-, -, -, e⟩ | ⟨-, -, -, e⟩ | ⟨-, -, e⟩ := sampleStep_cases s a <;> rw [e]
  · exact h.pdZero
  · exact h.pdNoise
  · exact h.append false
  · exact h.append true
  · exact pdInv_pdSync a

theorem PdInv.tally {a : Arch} (h : PdInv a) (p : Params) (m : MsgWord) : PdInv (tally p m a) := by
  obtain ⟨hcnt, hbuf, hlen, -⟩ := tally_frame p m a
  exact h.congr hcnt hbuf hlen

theorem PdInv.onPacket {a : Arch} (h : PdInv a) (p : Params) (P : Packet) : PdInv (onPacket p P a) := by
  obtain ⟨m, -, e⟩ | ⟨_, -, e⟩ := onPacket_cases p P a <;> rw [e]
  · exact h.tally p m
  · exact h

theorem PdInv.feedByte {a : Arch} (h : PdInv a) (p : Params) (d : Byte) : PdInv (feedByte p d a).1 := by
  refine feedByte_keeps (fun r => PdInv r.1) (fun r s hr => ?_) d a h
  obtain ⟨-, e⟩ | ⟨P, -, e⟩ := chainStep_cases p r s <;> rw [e]
  · exact hr.sampleStep s
  · exact (hr.sampleStep s).onPacket p P

theorem Leaves.pdInv {i : Instr} {s : State} {a : Arch} {ev : List PacketEvent} (hl : Leaves i s a ev) (h : PdInv s.arch) :
    PdInv a := by
  cases hl with
  | same | rsvd | clear => exact h
  | byte d => exact h.feedByte s.params d
  | endCmd => exact pdInv_of_empty (endWindow_cnt _) (endWindow_buf _) (endWindow_len _)
  | zero => exact h.pdZero
  | noise => exact h.pdNoise
  | short => exact h.append false
  | long => exact h.append true
  | sync | flush => exact pdInv_pdSync s.arch
  | tally m => exact h.tally s.params m

/-! VT state -/

theorem vtInv_of_empty {a : Arch} (h : a.table = []) (p : Params) : VtInv p a := by
  simp [VtInv, withinDepth, Arch.vtN, h]

theorem VtInv.congr {p : Params} {a b : Arch} (h : VtInv p a) (htable : b.table = a.table) : VtInv p b := by
  rwa [VtInv, Arch.vtN, htable]

theorem withinCount_one {p : Params} (hok : p.ok = true) : withinCount p 1 := by
  intro w hw
  have hpos : 1 ≤ w := by
    rw [Params.ok, hw] at hok
    simp at hok
    omega
  have : 2 ^ 1 ≤ 2 ^ w := Nat.pow_le_pow_right (by decide) hpos
  omega

theorem withinCount_succ {p : Params} {c : Nat} (h : withinCount p c) (hmax : atMax p c = false) : withinCount p (c + 1) := by
  intro w hw
  have hne : c ≠ 2 ^ w - 1 := fun hc => by simp [(atMax_iff p c).2 ⟨w, hw, hc⟩] at hmax
  have := h w hw
  omega

/-- Counting an entry again leaves the messages of the table. -/
theorem map_msg_set {es : List Entry} {i : Nat} {e : Entry} (hi : es[i]? = some e) (c : Nat) :
    (es.set i ⟨e.msg, c⟩).map Entry.msg = es.map Entry.msg := by
  obtain ⟨hlt, rfl⟩ := List.getElem?_eq_some_iff.1 hi
  rw [List.map_set, ← List.getElem_map Entry.msg (h := by simpa using hlt)]
  exact List.set_getElem_self _

/-- A tally adds a message to the table only where the table does not hold it. -/
theorem tally_nodup {a : Arch} (h : (a.table.map Entry.msg).Nodup) (p : Params) (m : MsgWord) :
    ((tally p m a).table.map Entry.msg).Nodup := by
  obtain ⟨i, e, hi, rfl, -, ⟨-, ht⟩ | ⟨-, ht⟩⟩ | ⟨hnew, ⟨-, ht⟩ | ⟨-, ht⟩⟩ := tally_cases p m a <;> rw [ht]
  · exact h
  · simpa only [map_msg_set hi] using h
  · rw [List.map_append, List.nodup_append]
    exact ⟨h, List.nodup_singleton m, by simpa using hnew⟩
  · exact h

theorem VtInv.tally {p : Params} {a : Arch} {m : MsgWord} (h : VtInv p a) (hok : p.ok = true) (hm : validMsgWord m = true) :
    VtInv p (tally p m a) := by
  have ⟨hdepth, hnodup, hentries⟩ := h
  have hnodup' := tally_nodup hnodup p m
  obtain ⟨i, e, hi, rfl, -, ⟨-, ht⟩ | ⟨hmax, ht⟩⟩ | ⟨hnew, ⟨hroom, ht⟩ | ⟨-, ht⟩⟩ := tally_cases p m a <;> rw [ht] at hnodup' ⊢
  · exact h
  · obtain ⟨hpos, hcount, -⟩ := hentries e (List.mem_of_getElem? hi)
    refine ⟨?_, hnodup', fun x hx => ?_⟩
    · simpa [Arch.vtN] using hdepth
    · obtain hx | rfl := List.mem_or_eq_of_mem_set hx
      · exact hentries x hx
      · exact ⟨Nat.le_add_left 1 _, withinCount_succ hcount hmax, hm⟩
  · refine ⟨fun d hd => ?_, hnodup', fun x hx => ?_⟩
    · simpa [Arch.vtN] using (hasRoom_iff p a.vtN).1 hroom d hd
    · obtain hx | hx := List.mem_append.1 hx
      · exact hentries x hx
      · obtain rfl := List.mem_singleton.1 hx
        exact ⟨Nat.le_refl 1, withinCount_one hok, hm⟩
  · exact h

/-- The message word of a packet's fields, which `PP.PARSE` answers if the checks pass (R137). -/
def msgOf (P : Packet) : MsgWord :=
  mkMsg (unpack P).id (unpack P).batteryOk (unpack P).channelRaw (unpack P).temperatureRaw (unpack P).humidity

theorem parse_eq_accept_iff (P : Packet) (m : MsgWord) :
    parse P = .accept m ↔ acceptedPacket P = true ∧ msgOf P = m := by
  obtain ⟨hacc, hparse⟩ | ⟨hacc, -, hparse⟩ := parse_cases P
  · rw [hparse, ParseResult.accept.injEq, hacc]
    exact ⟨fun h => ⟨rfl, h⟩, fun ⟨_, h⟩ => h⟩
  · simp [hparse, hacc]

/-- `PP.PARSE` answers valid message words only (R137). -/
theorem validMsgWord_of_parse {P : Packet} {m : MsgWord} (h : parse P = .accept m) : validMsgWord m = true := by
  obtain ⟨hacc, rfl⟩ := (parse_eq_accept_iff P m).1 h
  obtain ⟨-, -, hch, hh⟩ := (acceptedPacket_iff P).1 hacc
  exact validMsgWord_mkMsg hch hh _ _ _

theorem VtInv.onPacket {p : Params} {a : Arch} (h : VtInv p a) (hok : p.ok = true) (P : Packet) : VtInv p (onPacket p P a) := by
  obtain ⟨m, hparse, e⟩ | ⟨_, -, e⟩ := onPacket_cases p P a <;> rw [e]
  · exact h.tally hok (validMsgWord_of_parse hparse)
  · exact h

theorem VtInv.feedByte {p : Params} {a : Arch} (h : VtInv p a) (hok : p.ok = true) (d : Byte) :
    VtInv p (feedByte p d a).1 := by
  obtain ⟨-, e⟩ | ⟨-, -, e⟩ := feedByte_cases p d a <;> obtain ⟨htable, -⟩ := (pdFlush_eq_iff _ _).1 e
  · exact h.congr htable
  · exact VtInv.congr (VtInv.onPacket (a := pdFlush a) h hok a.buf) htable

theorem Leaves.vtInv {i : Instr} {s : State} {a : Arch} {ev : List PacketEvent} (hl : Leaves i s a ev)
    (hok : s.params.ok = true) (h : VtInv s.params s.arch) : VtInv s.params a := by
  cases hl with
  | byte d => exact h.feedByte hok d
  | tally m _ hm => exact h.tally hok hm
  | endCmd | clear => exact vtInv_of_empty rfl s.params
  | same | rsvd | zero | noise | short | long | sync | flush => exact h

/-! The result -/

/-- No operation but `END` writes `RESULT_VALID`, `RESULT` or `RESULT_CNT`. -/
theorem Leaves.keeps_result_or_end {i : Instr} {s : State} {a : Arch} {ev : List PacketEvent} (hl : Leaves i s a ev) :
    (a.resultValid = s.arch.resultValid ∧ a.result = s.arch.result ∧ a.resultCnt = s.arch.resultCnt) ∨
      ∃ d, i = .endCmd d ∧ a = endWindow s.arch := by
  cases hl with
  | endCmd d hi => exact .inr ⟨d, hi, rfl⟩
  | byte d =>
    obtain ⟨hvalid, hresult, hcount, -⟩ := feedByte_sameResult s.params d s.arch
    exact .inl ⟨hvalid, hresult, hcount⟩
  | tally m =>
    obtain ⟨-, -, -, hresult, hcount, hvalid⟩ := tally_frame s.params m s.arch
    exact .inl ⟨hvalid, hresult, hcount⟩
  | rsvd => exact .inl ⟨raise_resultValid .fCmd s.arch, rfl, rfl⟩
  | same | zero | noise | short | long | sync | flush | clear => exact .inl ⟨rfl, rfl, rfl⟩

theorem resultInv_of_not_valid {a : Arch} (h : a.resultValid = false) (p : Params) : ResultInv p a := by
  simp [ResultInv, h]

/-- What `END` publishes is an entry of the table. -/
theorem resultInv_endWindow {p : Params} {a : Arch} (h : VtInv p a) : ResultInv p (endWindow a) := by
  obtain ⟨-, -, hentries⟩ := h
  obtain ⟨e, hselect, -, hresult, hcount⟩ | ⟨-, hvalid, -⟩ := endWindow_result a
  · obtain ⟨hpos, hwithin, hmsg⟩ := hentries e (select_mem hselect)
    intro _
    rw [hresult, hcount]
    exact ⟨hmsg, hpos, hwithin⟩
  · exact resultInv_of_not_valid hvalid p

theorem Leaves.resultInv {i : Instr} {s : State} {a : Arch} {ev : List PacketEvent} (hl : Leaves i s a ev)
    (hvt : VtInv s.params s.arch) (h : ResultInv s.params s.arch) : ResultInv s.params a := by
  obtain ⟨hvalid, hresult, hcount⟩ | ⟨d, -, rfl⟩ := hl.keeps_result_or_end
  · rwa [ResultInv, hvalid, hresult, hcount]
  · exact resultInv_endWindow hvt

/-! The events -/

theorem eventOk_eventOf (P : Packet) : EventOk (eventOf P (parse P)) := by
  cases hparse : parse P with
  | accept m =>
    obtain ⟨hok, hrej, hmsg, -⟩ := packetEvent_fields true 0 m P
    rw [eventOf, EventOk, hok, hrej, hmsg]
    simp [validMsgWord_of_parse hparse]
  | reject r =>
    have hne : r ≠ 0 := by
      obtain ⟨-, h⟩ | ⟨-, hne, h⟩ := parse_cases P
      · cases h.symm.trans hparse
      · obtain rfl := ParseResult.reject.inj (h.symm.trans hparse)
        exact hne
    obtain ⟨hok, hrej, hmsg, -⟩ := packetEvent_fields false r 0 P
    rw [eventOf, EventOk, hok, hrej, hmsg]
    simpa using hne

theorem Leaves.eventsOk {i : Instr} {s : State} {a : Arch} {ev : List PacketEvent} (hl : Leaves i s a ev) :
    ev.length ≤ 1 ∧ ∀ e ∈ ev, EventOk e := by
  cases hl with
  | byte d =>
    obtain ⟨hev, -⟩ | ⟨-, hev, -⟩ := feedByte_cases s.params d s.arch <;> rw [hev]
    · simp
    · simp [eventOk_eventOf]
  | same | endCmd | rsvd | zero | noise | short | long | sync | flush | tally | clear => simp

/-! The whole machine -/

theorem inv_afterReset {s : State} (hok : s.params.ok = true) : s.afterReset.Inv :=
  ⟨hok, pdInv_of_empty rfl rfl rfl, vtInv_of_empty rfl s.params,
    resultInv_of_not_valid (Arch.resultValid_eq_false_of_status Arch.reset_status) s.params, by simp, by simp⟩

theorem exec_keeps_inv {i : Instr} {s t : State} (h : s.Inv) (hexec : exec i s = .next t) : t.Inv := by
  obtain ⟨hok, hpd, hvt, hresult, -, -⟩ := h
  obtain ⟨a, ev, o, rfl, hl⟩ := exec_next_cases hexec
  obtain ⟨hlength, hevents⟩ := hl.eventsOk
  exact ⟨hok, hl.pdInv hpd, hl.vtInv hok hvt, hl.resultInv hvt hresult, hlength, hevents⟩

/-- What operations and the reset keep, and what does not look at the inputs to come or at the value returned, every step keeps. -/
theorem step_keeps {M : State → Prop} (hinputs : ∀ s rest o, M s → M { s with pending := rest, out := o })
    (hexec : ∀ i s t, M s → exec i s = .next t → M t) (hreset : ∀ s, M s → M s.afterReset) {s t : State} (h : M s)
    (hstep : step s = .next t) : M t := by
  obtain ⟨-, rfl⟩ | ⟨rest, i, he, -⟩ | ⟨rest, -, rfl⟩ | ⟨p, rest, o, -, -, rfl⟩ := step_next_cases hstep
  · exact h
  · exact hexec i _ t (hinputs s rest s.out h) he
  · exact hreset _ (hinputs s rest s.out h)
  · exact hinputs s rest o h

end Sys2Proof.Machine
end

section
/-! PROOFS. The obligations on the invariants (R24, R26, R29, R88). -/

namespace Sys2Proof.Proofs
open Sys2Proof Sys2Proof.Machine

/-- Settles O51: the premise that the parameters are legal is kept along with the invariant. -/
theorem vtInvariant : Obligations.VtInvariant := by
  refine ⟨vtInv_of_empty rfl _, fun s t hok h hstep => ?_⟩
  refine (step_keeps (M := fun s => s.params.ok = true ∧ VtInv s.params s.arch) (fun _ _ _ h => h) ?_ ?_ ⟨hok, h⟩ hstep).2
  · rintro i s t ⟨hok, h⟩ hexec
    obtain ⟨a, ev, o, rfl, hl⟩ := exec_next_cases hexec
    exact ⟨hok, hl.vtInv hok h⟩
  · rintro s ⟨hok, -⟩
    exact ⟨hok, vtInv_of_empty rfl _⟩

/-- Settles O54: a step runs an operation, which keeps the invariant, or resets, or changes nothing that the invariant reads. -/
theorem stepsKeepInvariant : Obligations.StepsKeepInvariant := fun _ _ =>
  step_keeps (fun _ _ _ h => h) (fun _ _ _ => exec_keeps_inv) fun _ ⟨hok, _⟩ => inv_afterReset hok

/-- Settles O50: what an operation may leave keeps the invariant (`Leaves.pdInv`), and the reset meets it. -/
theorem pdInvariant : Obligations.PdInvariant := by
  refine ⟨pdInv_of_empty rfl rfl rfl, fun s t => step_keeps (M := fun s => PdInv s.arch) (fun _ _ _ h => h) ?_ ?_⟩
  · intro i s t h hexec
    obtain ⟨a, ev, o, rfl, hl⟩ := exec_next_cases hexec
    exact hl.pdInv h
  · exact fun _ _ => pdInv_of_empty rfl rfl rfl

/-- Settles O53: each part of the invariant is kept by all that an operation may leave. -/
theorem operationsKeepInvariant : Obligations.OperationsKeepInvariant := fun _ _ _ => exec_keeps_inv

/-- Settles O52: the state after reset is left as it is by a reset. -/
theorem invariantAtReset : Obligations.InvariantAtReset := inv_afterReset (s := State.reset) rfl

end Sys2Proof.Proofs
end

section
/-! PROOFS. The step, input by input: what it does with a sample, a packet word, a reset, a read and no input, and how a table word
comes to be the next input (log entries 5 and 6). -/

namespace Sys2Proof.Machine

/-! The step by its first input (`step_of_command` stands with the fault flags) -/

section
variable {s : State} {rest : List Stimulus}

theorem step_of_sample {b : Bool} (hp : s.pending = .sample b :: rest) :
    step s = exec (decodeEW (eventWord b s.arch.cnt)) { s with pending := rest } := by
  simp only [step, fetch, hp]

theorem step_of_packet {P : Packet} (hp : s.pending = .packet P :: rest) :
    step s = exec (decodePacket P) { s with pending := rest } := by
  simp only [step, fetch, hp]

theorem step_of_reset (hp : s.pending = .reset :: rest) : step s = .next { s with pending := rest }.afterReset := by
  simp only [step, fetch, hp]

theorem step_of_read {p : Port} {o : Output} (hp : s.pending = .read p :: rest) (hread : readPort p s.arch = .ok o) :
    step s = .next { s with pending := rest, out := o } := by
  simp only [step, fetch, hp, hread]

theorem step_of_read_not_valid {p : Port} (hp : s.pending = .read p :: rest) (hport : p ≠ .status)
    (hvalid : s.arch.resultValid = false) : step s = .fault .resultNotValid := by
  simp only [step, fetch, hp, readPort_of_not_resultValid hvalid hport]

theorem step_of_nothing (hp : s.pending = []) : step s = .next s := by
  simp only [step, fetch, hp]

end

/-- The reads that answer a value: of `STATUS` always, of the two others while `RESULT_VALID = 1` (R29). -/
theorem readPort_runs {p : Port} {a : Arch} (h : p = .status ∨ a.resultValid = true) : ∃ o, readPort p a = .ok o := by
  cases p with
  | status => exact ⟨_, rfl⟩
  | result => exact ⟨_, readPort_result_of_valid (h.resolve_left (by decide))⟩
  | resultCnt => exact ⟨_, readPort_resultCnt_of_valid (h.resolve_left (by decide))⟩

/-- A packet word runs, in the accepting row or in the rejecting one. -/
theorem exec_decodePacket_runs (P : Packet) (s : State) : ∃ t, exec (decodePacket P) s = .next t := by
  cases hP : acceptedPacket P with
  | false => exact ⟨_, by rw [decodePacket_of_not_accepted hP, exec_ppParseReject]⟩
  | true => exact ⟨_, by rw [decodePacket_of_accepted hP, exec_ppParseAccept]⟩

/-! A table word as the next input -/

/-- A table word that decodes is a word of a format, and that word is presented. -/
theorem withFetchWord_of_decodes {nbits w : Nat} {i : Instr} (h : decodeTableWord nbits w = some i) (s : State) :
    ∃ x, decodeWord x = i ∧ s.withFetchWord nbits w = s.present x := by
  rw [State.withFetchWord, State.presentTableWord]
  rw [decodeTableWord, decodeBytes] at h
  cases hx : readWord (tableBytes nbits w) with
  | error e => simp [hx, Except.map, Except.toOption] at h
  | ok x =>
    rw [hx] at h
    exact ⟨x, Option.some.inj h, rfl⟩

/-- An event word is its upper bit before its four lower bits (R73). -/
theorem eventWord_of_bits (w : EventWord) : eventWord (w.getLsbD 4) (w.extractLsb' 0 4) = w := by
  revert w; decide

/-- A word presented is run by the next step, from the state but for `CNT`, which an event word holds. -/
theorem step_present (x : FormatWord) (s : State) :
    ∃ c : BitVec 4, step (s.present x) = exec (decodeWord x) { s with arch := { s.arch with cnt := c } } ∧
      (c = s.arch.cnt ∨ ∃ b, decodeWord x = decodeEW (eventWord b c)) := by
  cases x with
  | cw w => exact ⟨s.arch.cnt, step_of_command rfl, .inl rfl⟩
  | ew w =>
    refine ⟨w.extractLsb' 0 4, ?_, .inr ⟨w.getLsbD 4, congrArg decodeEW (eventWord_of_bits w).symm⟩⟩
    rw [step_of_sample (b := w.getLsbD 4) (rest := s.pending) rfl]
    exact congrArg (fun v => exec (decodeEW v) _) (eventWord_of_bits w)
  | packet P => exact ⟨s.arch.cnt, step_of_packet rfl, .inl rfl⟩

end Sys2Proof.Machine
end

section
/-! PROOFS. The obligations on the step and on operands outside their rules. -/

namespace Sys2Proof.Proofs
open Sys2Proof Sys2Proof.Machine

/-- Settles O1: the words are closed terms, and the decoder computes. -/
theorem tableWordsDecode : Obligations.TableWordsDecode := by
  unfold Obligations.TableWordsDecode
  decide

/-- Settles O4, input by input. -/
theorem stepRunsDecoded : Obligations.StepRunsDecoded := fun _ _ =>
  ⟨fun _ => step_of_command, fun _ => step_of_sample, fun _ => step_of_packet⟩

/-- Settles O5: the word that the bytes hold is presented (`withFetchWord_of_decodes`), and the next step takes it
(`step_present`). -/
theorem presentedWordIsRun : Obligations.PresentedWordIsRun := by
  intro s nbits w i h
  obtain ⟨x, rfl, hpresent⟩ := withFetchWord_of_decodes h s
  rw [hpresent]
  exact step_present x s

/-- Settles O6: the step leaves `Arch.reset`, whose `STATUS = 0` makes both reads faults. -/
theorem resetValues : Obligations.ResetValues := by
  refine ⟨Arch.reset_atWindowStart, Arch.reset_status, fun s rest hp => ?_⟩
  have hvalid := Arch.resultValid_eq_false_of_status Arch.reset_status
  exact ⟨_, step_of_reset hp, Arch.reset_cnt, Arch.reset_buf, Arch.reset_len, Arch.reset_vtN, Arch.reset_status,
    readPort_of_not_resultValid hvalid (by decide), readPort_of_not_resultValid hvalid (by decide), Arch.reset_atWindowStart,
    rfl, rfl⟩

/-- Settles O7: the step is the read of the port, which `RESULT_VALID` decides. -/
theorem portReads : Obligations.PortReads := by
  intro s p rest hp
  refine ⟨?_, ?_, ?_, fun hvalid hport => step_of_read_not_valid hp hport hvalid⟩
  · rintro rfl
    exact step_of_read hp rfl
  · rintro hvalid rfl
    exact step_of_read hp (readPort_result_of_valid hvalid)
  · rintro hvalid rfl
    exact step_of_read hp (readPort_resultCnt_of_valid hvalid)

/-- Settles O8: every operation that a word decodes to answers a next state, and so does every input of the host but one. -/
theorem noInputStopsTheBlock : Obligations.NoInputStopsTheBlock := by
  intro s
  match hp : s.pending with
  | [] => exact .inl ⟨s, step_of_nothing hp⟩
  | .command w :: rest =>
    rw [step_of_command hp]
    exact .inl (exec_decodeCW_runs w _)
  | .sample b :: rest =>
    rw [step_of_sample hp]
    exact .inl ⟨_, exec_decodeEW_eventWord b { s with pending := rest }⟩
  | .packet P :: rest =>
    rw [step_of_packet hp]
    exact .inl (exec_decodePacket_runs P _)
  | .reset :: rest => exact .inl ⟨_, step_of_reset hp⟩
  | .read p :: rest =>
    by_cases h : p = .status ∨ s.arch.resultValid = true
    · obtain ⟨o, hread⟩ := readPort_runs h
      exact .inl ⟨_, step_of_read hp hread⟩
    · obtain ⟨hport, hvalid⟩ := not_or.1 h
      rw [Bool.not_eq_true] at hvalid
      exact .inr ⟨step_of_read_not_valid hp hport hvalid, hvalid, p, rest, rfl, hport⟩

/-- Settles O9: operations keep the parameters (`exec_keeps`), and so does the reset. -/
theorem parametersAreConstant : Obligations.ParametersAreConstant := by
  intro s t
  refine step_keeps (M := fun x => x.params = s.params) (fun _ _ _ h => h) (fun i x y h hexec => ?_) (fun _ h => h) rfl
  obtain ⟨hparams, -⟩ := exec_keeps hexec
  exact hparams.trans h

/-- Settles O30: the operands fail the test that the operation's meaning begins with. -/
theorem operandsOutsideTheRulesStop : Obligations.OperandsOutsideTheRulesStop := by
  refine ⟨fun P p w s h => if_neg h, fun P p w s h => if_neg h, fun id b ch t hum s h => ?_, fun m s h => ?_⟩
  · exact if_neg (mt (legalFields_iff ch hum).1 h)
  · refine if_neg (mt (validMsgWord_iff m).1 fun ⟨hch, hh⟩ => h ⟨fun h0 => hch ?_, hh⟩)
    exact BitVec.eq_of_toNat_eq h0

end Sys2Proof.Proofs
end

section
/-! PROOFS. Rules of the whole machine, operation by operation: what raises a fault flag (R217 to R219), how much one `BYTE` can do
(R57, R110), and what an operation cannot see (R31). -/

namespace Sys2Proof.Machine
open Sys2Proof.Config

/-! The causes of the fault flags -/

theorem flag_or_eq_of_raise {f g : FaultFlag} {a : Arch} (h : (raise f a).flag g = true) : a.flag g = true ∨ g = f := by
  rw [raise_flag, Bool.or_eq_true, decide_eq_true_iff] at h
  exact h.imp_right Eq.symm

/-- A flag set after a tally was set before it, or the voter's capacity that the flag stands for is used up. -/
theorem tally_raises {p : Params} {m : MsgWord} {a : Arch} {f : FaultFlag} (h : (tally p m a).flag f = true) :
    a.flag f = true ∨ (f = .fVtFull ∧ TableFullFor p m a) ∨ (f = .fVtSat ∧ CountFullFor p m a) := by
  obtain ⟨i, e, hi, he, hfirst, ⟨hmax, ht⟩ | ⟨-, ht⟩⟩ | ⟨hnew, ⟨-, ht⟩ | ⟨hroom, ht⟩⟩ := tally_cases p m a <;> rw [ht] at h
  · obtain ⟨w, hw, hcnt⟩ := (atMax_iff p e.cnt).1 hmax
    exact (flag_or_eq_of_raise h).imp_right fun hf => .inr ⟨hf, w, i, e, hw, hi, he, hcnt, hfirst⟩
  · exact .inl h
  · exact .inl h
  · have hfull : ∃ d, p.vtDepth = some d ∧ d ≤ a.vtN := by
      simpa [← Bool.not_eq_true, hasRoom_iff] using hroom
    exact (flag_or_eq_of_raise h).imp_right fun hf => .inl ⟨hf, hfull, hnew⟩

/-- A flag set after an operation was set before it, or is `F_CMD` and the operation the reserved code, or a message arrives for which
the capacity that the flag stands for is used up. -/
theorem exec_raises {i : Instr} {s t : State} {f : FaultFlag} (hexec : exec i s = .next t) (hset : t.arch.flag f = true) :
    s.arch.flag f = true ∨ (f = .fCmd ∧ ∃ d, i = .rsvd d) ∨
      ∃ m, Arrives i s t m ∧
        ((f = .fVtFull ∧ TableFullFor s.params m s.arch) ∨ (f = .fVtSat ∧ CountFullFor s.params m s.arch)) := by
  obtain ⟨a, ev, o, rfl, hl⟩ := exec_next_cases hexec
  rw [State.done_arch] at hset
  cases hl with
  | same | zero | noise | short | long | sync | flush | clear => exact .inl hset
  | endCmd => exact .inl ((endWindow_flag f s.arch).symm.trans hset)
  | rsvd d hi => exact (flag_or_eq_of_raise hset).imp_right fun hf => .inl ⟨hf, d, hi⟩
  | tally m hi => exact (tally_raises hset).imp_right fun h => .inr ⟨m, .inl hi, h⟩
  | byte d hi =>
    obtain ⟨-, e⟩ | ⟨hlen, hev, e⟩ := feedByte_cases s.params d s.arch <;> rw [flag_eq_of_pdFlush_eq e f] at hset
    · exact .inl hset
    · obtain ⟨m, hparse, e⟩ | ⟨_, -, e⟩ := onPacket_cases s.params s.arch.buf (pdFlush s.arch) <;> rw [e] at hset
      · have harrives : Arrives i s (s.done (feedByte s.params d s.arch).1 (feedByte s.params d s.arch).2 o) m :=
          .inr ⟨⟨d, hi⟩, hlen, hparse, by rw [State.done_ev, hev, hparse, eventOf]⟩
        exact (tally_raises hset).imp_right fun h => .inr ⟨m, harrives, h⟩
      · exact .inl hset

/-! How much one `BYTE` can do -/

/-- A bit costs two samples, the last one a 1: with half a bit counted for a gap that has begun, a sample adds at most half a bit. -/
theorem sampleStep_len_le (s : Bool) (a : Arch) :
    2 * (sampleStep s a).1.len.toNat + min (sampleStep s a).1.cnt.toNat 1 ≤ 2 * a.len.toNat + min a.cnt.toNat 1 + 1 := by
  have happend := fun b => append_len_toNat b a
  have hcnt0 : (0 : BitVec 4).toNat = 0 := rfl
  have hlen0 : (0 : BitVec 6).toNat = 0 := rfl
  obtain ⟨-, e⟩ | ⟨-, -, e⟩ | ⟨-, h1, -, e⟩ | ⟨-, h5, -, e⟩ | ⟨-, -, e⟩ := sampleStep_cases s a <;> rw [e]
  · rw [pdZero_cnt_toNat, pdZero_len]; omega
  · rw [pdNoise_cnt, pdNoise_len, hcnt0]; omega
  · rw [pdShort_cnt, pdShort_len, happend, hcnt0]; omega
  · rw [pdLong_cnt, pdLong_len, happend, hcnt0]; omega
  · rw [pdSync_cnt, pdSync_len, hcnt0, hlen0]; omega

theorem onPacket_len (p : Params) (P : Packet) (a : Arch) : (onPacket p P a).len = a.len := by
  obtain ⟨m, -, h⟩ | ⟨_, -, h⟩ := onPacket_cases p P a <;> rw [h]
  obtain ⟨-, -, hlen, -⟩ := tally_frame p m a
  exact hlen

/-- The parse and the tally inside a sample step leave `CNT` and `LEN` as the sample step does. -/
theorem chainStep_cnt_len (p : Params) (r : Arch × List PacketEvent) (s : Bool) :
    (chainStep p r s).1.cnt = (sampleStep s r.1).1.cnt ∧ (chainStep p r s).1.len = (sampleStep s r.1).1.len := by
  obtain ⟨-, e⟩ | ⟨P, -, e⟩ := chainStep_cases p r s <;> rw [e]
  · exact ⟨rfl, rfl⟩
  · exact ⟨onPacket_cnt _ _ _, onPacket_len _ _ _⟩

theorem foldl_chainStep_len_le (p : Params) (ss : List Bool) (r : Arch × List PacketEvent) :
    2 * (ss.foldl (chainStep p) r).1.len.toNat ≤ 2 * r.1.len.toNat + min r.1.cnt.toNat 1 + ss.length := by
  induction ss generalizing r with
  | nil => simp
  | cons s ss ih =>
    obtain ⟨hcnt, hlen⟩ := chainStep_cnt_len p r s
    have hrest := ih (chainStep p r s)
    have hstep := sampleStep_len_le s r.1
    rw [hcnt, hlen] at hrest
    rw [List.foldl_cons, List.length_cons]
    omega

theorem feedByte_len_le (p : Params) (d : Byte) (a : Arch) : (feedByte p d a).1.len.toNat ≤ a.len.toNat + 4 := by
  have h : 2 * (feedByte p d a).1.len.toNat ≤ 2 * a.len.toNat + min a.cnt.toNat 1 + 8 :=
    foldl_chainStep_len_le p (samples d) (a, [])
  omega

theorem tally_vtN_le (p : Params) (m : MsgWord) (a : Arch) : (tally p m a).vtN ≤ a.vtN + 1 := by
  obtain ⟨_, _, -, -, -, ⟨-, h⟩ | ⟨-, h⟩⟩ | ⟨-, ⟨-, h⟩ | ⟨-, h⟩⟩ := tally_cases p m a <;> rw [h] <;> simp [Arch.vtN]

theorem onPacket_vtN_le (p : Params) (P : Packet) (a : Arch) : (onPacket p P a).vtN ≤ a.vtN + 1 := by
  obtain ⟨m, -, h⟩ | ⟨_, -, h⟩ := onPacket_cases p P a <;> rw [h]
  · exact tally_vtN_le p m a
  · exact Nat.le_succ _

theorem vtN_eq_of_pdFlush_eq {a b : Arch} (h : pdFlush a = pdFlush b) : a.vtN = b.vtN := by
  obtain ⟨htable, -⟩ := (pdFlush_eq_iff a b).1 h
  exact congrArg List.length htable

theorem feedByte_vtN_le (p : Params) (d : Byte) (a : Arch) : (feedByte p d a).1.vtN ≤ a.vtN + 1 := by
  obtain ⟨-, e⟩ | ⟨-, -, e⟩ := feedByte_cases p d a <;> rw [vtN_eq_of_pdFlush_eq e]
  · exact Nat.le_succ _
  · exact onPacket_vtN_le p a.buf (pdFlush a)

/-! A run of 1 samples -/

theorem sampleStep_true_cnt (a : Arch) : (sampleStep true a).1.cnt = 0 := by
  obtain ⟨h, -⟩ | ⟨-, -, e⟩ | ⟨-, -, -, e⟩ | ⟨-, -, -, e⟩ | ⟨-, -, e⟩ := sampleStep_cases true a
  · cases h
  all_goals rw [e]; rfl

/-- After a 1 sample another one is noise, and with `CNT = 0` noise changes nothing. -/
theorem chainStep_true_true (p : Params) (r : Arch × List PacketEvent) :
    chainStep p (chainStep p r true) true = chainStep p r true := by
  obtain ⟨hcnt, -⟩ := chainStep_cnt_len p r true
  rw [sampleStep_true_cnt] at hcnt
  have hquiet := sampleStep_true_of_noGap (congrArg BitVec.toNat hcnt)
  rw [pdNoise_eq_self hcnt] at hquiet
  exact chainStep_of_quiet hquiet p _

theorem foldl_chainStep_replicate_true (p : Params) (n : Nat) (r : Arch × List PacketEvent) :
    (List.replicate (n + 1) true).foldl (chainStep p) r = chainStep p r true := by
  induction n with
  | zero => rfl
  | succ n ih => rw [List.replicate_succ', List.foldl_append, ih, List.foldl_cons, List.foldl_nil, chainStep_true_true]

/-! PD state apart from the rest -/

/-- The registers of PD of `b` in the state `a`. -/
def Arch.withPd (a b : Arch) : Arch := { a with cnt := b.cnt, buf := b.buf, len := b.len }

@[simp] theorem Arch.withPd_flag (a b : Arch) (f : FaultFlag) : (a.withPd b).flag f = a.flag f := rfl

/-- PD reads and writes its own registers only (R34). -/
theorem sampleStep_withPd (s : Bool) (a b : Arch) :
    sampleStep s (a.withPd b) = (a.withPd (sampleStep s b).1, (sampleStep s b).2) := by
  obtain ⟨rfl, e⟩ | ⟨rfl, h0, e⟩ | ⟨rfl, h1, h4, e⟩ | ⟨rfl, h5, h10, e⟩ | ⟨rfl, h11, e⟩ := sampleStep_cases s b <;> rw [e]
  · exact sampleStep_false (a.withPd b)
  · exact sampleStep_true_of_noGap (a := a.withPd b) h0
  · exact sampleStep_true_of_shortGap (a := a.withPd b) h1 h4
  · exact sampleStep_true_of_longGap (a := a.withPd b) h5 h10
  · exact sampleStep_true_of_syncGap (a := a.withPd b) h11

/-! What an operation cannot see -/

/-- The architectural state with the registers that survive a window blanked: what is left is PD and VT state. -/
def Arch.blank (a : Arch) : Arch := { a with status := 0, result := 0, resultCnt := 0 }

theorem Arch.blank_eq_iff (a b : Arch) :
    a.blank = b.blank ↔ a.cnt = b.cnt ∧ a.buf = b.buf ∧ a.len = b.len ∧ a.table = b.table := by
  cases a; cases b; simp [Arch.blank]

theorem sampleStep_blank (s : Bool) (a : Arch) : sampleStep s a.blank = ((sampleStep s a).1.blank, (sampleStep s a).2) := by
  obtain ⟨htable, -⟩ := sampleStep_frame s a
  have hblank : (sampleStep s a).1.blank = a.blank.withPd (sampleStep s a).1 := by simp [Arch.blank, Arch.withPd, htable]
  rw [hblank]
  exact sampleStep_withPd s a.blank a

/-- What a tally makes of a table, and the bits of `STATUS` that it sets. -/
def tallyEffect (p : Params) (m : MsgWord) (es : List Entry) : List Entry × BitVec 4 :=
  match countAgain p m es with
  | some (_, true) => (es, 1#4 <<< FaultFlag.fVtSat.bit)
  | some (es', false) => (es', 0)
  | none => if hasRoom p es.length then (es ++ [⟨m, 1⟩], 0) else (es, 1#4 <<< FaultFlag.fVtFull.bit)

/-- A tally reads the table only, and writes the table and `STATUS` only. -/
theorem tally_eq (p : Params) (m : MsgWord) (a : Arch) : tally p m a =
    { a with table := (tallyEffect p m a.table).1, status := a.status ||| (tallyEffect p m a.table).2 } := by
  unfold tally tallyEffect
  rcases countAgain p m a.table with _ | ⟨es, _ | _⟩
  · cases hroom : hasRoom p a.table.length <;> simp [Arch.vtN, hroom, raise]
  · simp
  · rfl

theorem tally_blank (p : Params) (m : MsgWord) (a : Arch) : (tally p m a.blank).blank = (tally p m a).blank := by
  rw [tally_eq, tally_eq]
  rfl

theorem onPacket_blank (p : Params) (P : Packet) (a : Arch) : (onPacket p P a.blank).blank = (onPacket p P a).blank := by
  cases h : parse P with
  | accept m => rw [onPacket_of_accept h, onPacket_of_accept h, tally_blank]
  | reject r => rw [onPacket_of_reject h, onPacket_of_reject h]; rfl

/-- One sample of a `BYTE` from two states with the same PD and VT state. -/
theorem chainStep_blank_congr {a b : Arch} (h : a.blank = b.blank) (p : Params) (evs : List PacketEvent) (s : Bool) :
    (chainStep p (a, evs) s).1.blank = (chainStep p (b, evs) s).1.blank ∧
      (chainStep p (a, evs) s).2 = (chainStep p (b, evs) s).2 := by
  have hstep := sampleStep_blank s a
  rw [h, sampleStep_blank s b] at hstep
  obtain ⟨harch, hpacket⟩ := Prod.mk.inj hstep
  cases hP : (sampleStep s a).2 with
  | none =>
    rw [chainStep_of_quiet (Prod.ext rfl hP), chainStep_of_quiet (Prod.ext rfl (hpacket.trans hP))]
    exact ⟨harch.symm, rfl⟩
  | some P =>
    rw [chainStep_of_emit (Prod.ext rfl hP), chainStep_of_emit (Prod.ext rfl (hpacket.trans hP))]
    refine ⟨?_, rfl⟩
    rw [← onPacket_blank, ← harch, onPacket_blank]

theorem feedSamples_blank_congr {a b : Arch} (h : a.blank = b.blank) (p : Params) (ss : List Bool) :
    (feedSamples p ss a).1.blank = (feedSamples p ss b).1.blank ∧ (feedSamples p ss a).2 = (feedSamples p ss b).2 := by
  unfold feedSamples
  generalize ([] : List PacketEvent) = evs
  induction ss generalizing a b evs with
  | nil => exact ⟨h, rfl⟩
  | cons s ss ih =>
    obtain ⟨harch, hevs⟩ := chainStep_blank_congr h p evs s
    have hrest := ih harch (chainStep p (a, evs) s).2
    rw [List.foldl_cons, List.foldl_cons]
    rwa [show ((chainStep p (b, evs) s).1, (chainStep p (a, evs) s).2) = chainStep p (b, evs) s from Prod.ext rfl hevs] at hrest

theorem feedByte_blank (p : Params) (d : Byte) (a : Arch) :
    (feedByte p d a).1.blank = (feedByte p d a.blank).1.blank ∧ (feedByte p d a).2 = (feedByte p d a.blank).2 := by
  have h : a.blank = a.blank.blank := rfl
  exact feedSamples_blank_congr h p (samples d)

/-- The state with all blanked that an operation cannot see: what survives a window, the inputs to come and the outputs. -/
def State.blank (s : State) : State := { arch := s.arch.blank, params := s.params, pending := [], ev := [], out := .none }

@[simp] theorem State.blank_arch (s : State) : s.blank.arch = s.arch.blank := rfl
@[simp] theorem State.blank_params (s : State) : s.blank.params = s.params := rfl

/-- Two states agree in PD state, in VT state, in the events and in the value returned. -/
def SameAnswer (s t : State) : Prop := s.arch.blank = t.arch.blank ∧ s.ev = t.ev ∧ s.out = t.out

theorem SameAnswer.done {s t : State} {a b : Arch} (h : a.blank = b.blank) {ev ev' : List PacketEvent} (hev : ev = ev')
    (o : Output) : SameAnswer (s.done a ev o) (t.done b ev' o) := ⟨h, hev, rfl⟩

/-- Each operation runs from the blanked state as it does from the state. -/
theorem exec_blank {i : Instr} {s t : State} (h : exec i s = .next t) :
    ∃ u, exec i s.blank = .next u ∧ SameAnswer t u := by
  cases i with
  | byte d =>
    cases h
    refine ⟨_, exec_byte d s.blank, ?_⟩
    rw [State.blank_arch, State.blank_params]
    obtain ⟨harch, hev⟩ := feedByte_blank s.params d s.arch
    exact SameAnswer.done harch hev .none
  | endCmd d =>
    cases h
    refine ⟨_, rfl, (Arch.blank_eq_iff _ _).2 ?_, rfl, rfl⟩
    simp
  | ppUext P p w | ppSext P p w =>
    simp only [exec, execPpUext, execPpSext] at h ⊢
    split at h
    · next hc => cases h; exact ⟨_, if_pos hc, rfl, rfl, rfl⟩
    · cases h
  | ppMkmsg id b ch tr hu =>
    simp only [exec, execPpMkmsg] at h ⊢
    split at h
    · next hc => cases h; exact ⟨_, if_pos hc, rfl, rfl, rfl⟩
    · cases h
  | vtTally m =>
    simp only [exec, execVtTally] at h ⊢
    split at h
    · next hc => cases h; exact ⟨_, if_pos hc, (tally_blank s.params m s.arch).symm, rfl, rfl⟩
    · cases h
  | vtSelect =>
    simp only [exec, execVtSelect] at h
    split at h
    · next e he => cases h; exact ⟨_, exec_vtSelect_of_some (s := s.blank) he, rfl, rfl, rfl⟩
    · cases h
  | nop | rsvd | pdZero | pdNoise | pdShort1 | pdShort2to3 | pdShort4 | pdLong5 | pdLong6to7 | pdLong8to9 | pdLong10
  | pdSync11 | pdSync12to15 | ppParseAccept | ppParseReject | pdFlush | ppUnpack | ppCheck | vtClear =>
    cases h; exact ⟨_, rfl, rfl, rfl, rfl⟩

theorem exec_sameAnswer {i : Instr} {s t s' t' : State} (hblank : s.blank = t.blank) (hs : exec i s = .next s')
    (ht : exec i t = .next t') : SameAnswer s' t' := by
  obtain ⟨u, hu, harch, hev, hout⟩ := exec_blank hs
  obtain ⟨v, hv, harch', hev', hout'⟩ := exec_blank ht
  rw [hblank, hv] at hu
  cases hu
  exact ⟨harch.trans harch'.symm, hev.trans hev'.symm, hout.trans hout'.symm⟩

/-- What `END` publishes is read off the table alone. -/
theorem endWindow_result_congr {a b : Arch} (h : a.table = b.table) :
    (endWindow a).resultValid = (endWindow b).resultValid ∧
      ((endWindow a).resultValid = true →
        (endWindow a).result = (endWindow b).result ∧ (endWindow a).resultCnt = (endWindow b).resultCnt) ∧
      (a.table ≠ [] → (endWindow a).resultValid = true) := by
  obtain ⟨e, hselect, hvalid, hresult, hcount⟩ | ⟨hnone, hvalid, -⟩ := endWindow_result a <;>
    obtain ⟨e', hselect', hvalid', hresult', hcount'⟩ | ⟨hnone', hvalid', -⟩ := endWindow_result b
  · rw [h] at hselect
    obtain rfl := Option.some.inj (hselect.symm.trans hselect')
    exact ⟨hvalid.trans hvalid'.symm, fun _ => ⟨hresult.trans hresult'.symm, hcount.trans hcount'.symm⟩, fun _ => hvalid⟩
  · rw [h, hnone'] at hselect; cases hselect
  · rw [← h, hnone] at hselect'; cases hselect'
  · refine ⟨hvalid.trans hvalid'.symm, fun hv => ?_, fun hne => absurd ((select_eq_none _).1 hnone) hne⟩
    simp [hvalid] at hv

/-- The reads of `RESULT` and `RESULT_CNT` show these two while `RESULT_VALID = 1`, and otherwise nothing. -/
theorem readPort_congr {a b : Arch} (hvalid : a.resultValid = b.resultValid)
    (hresult : a.resultValid = true → a.result = b.result ∧ a.resultCnt = b.resultCnt) {p : Port} (hp : p ≠ .status) :
    readPort p a = readPort p b := by
  cases hv : a.resultValid with
  | false => rw [readPort_of_not_resultValid hv hp, readPort_of_not_resultValid (hvalid.symm.trans hv) hp]
  | true =>
    obtain ⟨hr, hc⟩ := hresult hv
    have hv' := hvalid.symm.trans hv
    cases p with
    | status => exact absurd rfl hp
    | result => rw [readPort_result_of_valid hv, readPort_result_of_valid hv', hr]
    | resultCnt => rw [readPort_resultCnt_of_valid hv, readPort_resultCnt_of_valid hv', hc]

end Sys2Proof.Machine
end

section
/-! PROOFS. The obligations on the flags, the result, the bounds of a `BYTE` and what outlives a window. -/

namespace Sys2Proof.Proofs
open Sys2Proof Sys2Proof.Machine

/-- Settles O17: each further 1 sample is noise (`chainStep_true_true`). -/
theorem pulseWidthIsIgnored : Obligations.PulseWidthIsIgnored := by
  intro p a n hn
  obtain ⟨n, rfl⟩ := Nat.exists_eq_add_of_le' hn
  exact foldl_chainStep_replicate_true p n (a, [])

/-- Settles O39: a bit takes two samples (`sampleStep_len_le`), and a `BYTE` is too short for a second frame boundary
(`feedByte_cases`). -/
theorem byteIsBounded : Obligations.ByteIsBounded := by
  intro d s t hexec
  cases hexec
  exact ⟨feedByte_len_le s.params d s.arch, feedByte_events_length_le s.params d s.arch, feedByte_vtN_le s.params d s.arch⟩

/-- Settles O42: what is not `END` keeps the three (`Leaves.keeps_result_or_end`), and `END` keeps the contents unless it selects an
entry (`endWindow_result`). -/
theorem onlyEndWritesTheResult : Obligations.OnlyEndWritesTheResult := by
  intro i s t hexec
  obtain ⟨a, ev, o, rfl, hl⟩ := exec_next_cases hexec
  rw [State.done_arch]
  obtain ⟨hvalid, hresult, hcount⟩ | ⟨d, hi, rfl⟩ := hl.keeps_result_or_end
  · refine ⟨fun hwritten => ?_, fun hwritten => absurd hvalid hwritten⟩
    exact hwritten.elim (absurd hresult) (absurd hcount)
  · refine ⟨fun hwritten => ⟨⟨d, hi⟩, ?_⟩, fun _ => ⟨d, hi⟩⟩
    obtain ⟨-, -, hvalid, -⟩ | ⟨-, -, hresult, hcount⟩ := endWindow_result s.arch
    · exact hvalid
    · exact hwritten.elim (absurd hresult) (absurd hcount)

/-- Settles O44: all that can set a flag is listed once, in `exec_raises`; each flag takes its own line of it. -/
theorem faultFlagsHaveTheirCauses : Obligations.FaultFlagsHaveTheirCauses := by
  intro i s t hexec
  refine ⟨fun hclear hset => ?_, fun hclear hset => ?_, fun hclear hset => ?_⟩
  · obtain ⟨-, hrsvd⟩ | ⟨m, -, ⟨⟨⟩, -⟩ | ⟨⟨⟩, -⟩⟩ := (exec_raises hexec hset).resolve_left (by simp [hclear])
    exact hrsvd
  · obtain ⟨⟨⟩, -⟩ | ⟨m, harrives, ⟨-, hfull⟩ | ⟨⟨⟩, -⟩⟩ := (exec_raises hexec hset).resolve_left (by simp [hclear])
    exact ⟨m, harrives, hfull⟩
  · obtain ⟨⟨⟩, -⟩ | ⟨m, harrives, ⟨⟨⟩, -⟩ | ⟨-, hfull⟩⟩ := (exec_raises hexec hset).resolve_left (by simp [hclear])
    exact ⟨m, harrives, hfull⟩

/-- Settles O45: both runs are compared with the run from the blanked state (`exec_sameAnswer`), and what `END` publishes is read off
the table (`endWindow_result_congr`). -/
theorem earlierWindowsCannotBeSeen : Obligations.EarlierWindowsCannotBeSeen := by
  intro i s t s' t' hs ht hparams hcnt hbuf hlen htable
  have hblank : s.blank = t.blank := by
    simp only [State.blank, hparams, (Arch.blank_eq_iff s.arch t.arch).2 ⟨hcnt, hbuf, hlen, htable⟩]
  obtain ⟨harch, hev, hout⟩ := exec_sameAnswer hblank hs ht
  obtain ⟨hcnt', hbuf', hlen', htable'⟩ := (Arch.blank_eq_iff _ _).1 harch
  refine ⟨hcnt', hbuf', hlen', htable', hev, hout, ?_⟩
  rintro ⟨d, rfl⟩
  cases hs
  cases ht
  obtain ⟨hvalid, hresult, hne⟩ := endWindow_result_congr htable
  exact ⟨hvalid, fun h => hresult (hne h), fun p hp => readPort_congr hvalid hresult hp⟩

end Sys2Proof.Proofs
end

section
/-! PROOFS. The parser against `parse_ref` (R138): a slice of the packet string as a number, a message word and its fields, and the
message it denotes (R85, R86, R135). -/

namespace Sys2Proof.Machine
open Sys2Proof.Machine.Reference

/-! Numerals of bit strings -/

theorem numeral_concat (s : List Bool) (b : Bool) : numeral (s ++ [b]) = 2 * numeral s + b.toNat := by
  simp [numeral]

theorem slice_stringOf {p w : Nat} (hp : p + w ≤ 36) (P : Packet) :
    slice (stringOf P) p w = (List.range w).map fun k => P.getLsbD (35 - (p + k)) := by
  apply List.ext_getElem
  · simp [slice, stringOf]; omega
  · intro k _ _
    simp [slice, stringOf]

/-- One more character on the right is one more binary digit. -/
theorem uext_succ {p w : Nat} (hp : p + (w + 1) ≤ 36) (P : Packet) :
    uext P p (w + 1) = 2 * uext P p w + (P.getLsbD (35 - (p + w))).toNat := by
  have hstart : 36 - p - w = (36 - p - (w + 1)) + 1 := by omega
  have hbit : 35 - (p + w) = 36 - p - (w + 1) := by omega
  simp only [uext, fieldBits, Config.pktBits, BitVec.extractLsb'_toNat, hbit, hstart]
  rw [Nat.shiftRight_add, ← BitVec.testBit_toNat, Nat.toNat_testBit, ← Nat.shiftRight_eq_div_pow, Nat.pow_succ', Nat.mod_mul]
  simp only [Nat.shiftRight_one]
  omega

/-- `int(s[p +: w])` is `UEXT(P, p, w)` (R131, R138). -/
theorem numeral_slice_stringOf {p w : Nat} (hp : p + w ≤ 36) (P : Packet) : numeral (slice (stringOf P) p w) = uext P p w := by
  rw [slice_stringOf hp]
  induction w with
  | zero => simp [numeral, uext, fieldBits]
  | succ w ih => rw [List.range_succ, List.map_append, List.map_singleton, numeral_concat, ih (by omega), uext_succ hp]

/-! A message word and its fields -/

theorem mkMsg_of_fields (m : MsgWord) :
    mkMsg (msgId m) (msgBattery m) (msgChannel m - 1) (msgTemperature m) (msgHumidity m) = m := by
  rw [mkMsg, BitVec.sub_add_cancel]
  simp only [msgId, msgBattery, msgChannel, msgTemperature, msgHumidity]
  iterate 4 rw [BitVec.extractLsb'_append_extractLsb'_eq_extractLsb' (by rfl)]
  exact BitVec.extractLsb'_eq_self

theorem denotedTemperature_inj {m n : MsgWord} (h : denotedTemperature m = denotedTemperature n) :
    msgTemperature m = msgTemperature n := by
  have hscale : (Config.tempScale : ℚ) ≠ 0 := by norm_num [Config.tempScale]
  exact BitVec.eq_of_toInt_eq (Int.cast_injective ((div_left_inj' hscale).1 h))

theorem denote_injective : Function.Injective denote := by
  intro m n h
  obtain ⟨hid, hchannel, htemperature, hhumidity, hbattery⟩ := (Message.mk.injEq ..).mp h
  have hbit : ∀ a b : BitVec 1, (a == 1) = (b == 1) → a = b := by decide
  rw [← mkMsg_of_fields m, ← mkMsg_of_fields n, BitVec.eq_of_toNat_eq hid, BitVec.eq_of_toNat_eq hchannel,
    denotedTemperature_inj htemperature, BitVec.eq_of_toNat_eq hhumidity, hbit _ _ hbattery]

/-! `parse_ref` on the string of a packet -/

/-- The sign rule of `parse_ref` is two's complement (R132, R138). -/
theorem toInt_eq_parseRef_sign (t : BitVec 12) :
    t.toInt = if t.toNat ≥ 2048 then (t.toNat : Int) - 4096 else t.toNat := by
  rw [BitVec.toInt_eq_toNat_cond]
  split_ifs <;> omega

/-- The range test of `parse_ref` is the test of R90. -/
theorem acceptedPacket_iff_parseRef (P : Packet) : acceptedPacket P = true ↔
    (uext P 10 2 = 0 ∨ uext P 10 2 = 1 ∨ uext P 10 2 = 2) ∧ uext P 9 1 = 0 ∧ uext P 24 4 = 15 ∧ uext P 28 8 ≤ 100 := by
  rw [acceptedPacket_iff, ← BitVec.toNat_inj, ← BitVec.toNat_inj]
  show uext P 9 1 = 0 ∧ uext P 24 4 = 15 ∧ uext P 10 2 ≤ 2 ∧ uext P 28 8 ≤ 100 ↔ _
  omega

theorem denote_msgOf {P : Packet} (hch : (unpack P).channelRaw.toNat ≤ 2) : denote (msgOf P) =
    { id := uext P 0 8, channel := uext P 10 2 + 1, temperature := ((unpack P).temperatureRaw.toInt : ℚ) / 10,
      humidity := uext P 28 8, isBatteryOk := uext P 8 1 == 1 } := by
  obtain ⟨hid, hbattery, -, htemperature, hhumidity⟩ := mkMsg_fields (unpack P).id (unpack P).batteryOk (unpack P).channelRaw
    (unpack P).temperatureRaw (unpack P).humidity
  have hbit : ∀ b : BitVec 1, (b == 1) = (b.toNat == 1) := by decide
  rw [denote, denotedTemperature, msgOf, hid, hbattery, htemperature, hhumidity, msgChannel_mkMsg_toNat hch, hbit]
  rfl

/-- `parse_ref` returns exactly on the strings of accepted packets, the message that the packet's message word denotes. -/
theorem parseRef_stringOf (P : Packet) :
    parseRef (stringOf P) = if acceptedPacket P = true then some (denote (msgOf P)) else none := by
  simp (disch := decide) only [parseRef, numeral_slice_stringOf, ← acceptedPacket_iff_parseRef]
  refine if_ctx_congr .rfl (fun hacc => ?_) fun _ => rfl
  obtain ⟨-, -, hch, -⟩ := (acceptedPacket_iff P).1 hacc
  rw [denote_msgOf hch, toInt_eq_parseRef_sign]
  rfl

end Sys2Proof.Machine
end

section
/-! PROOFS. The obligations on the agreement of the parser with `parse_ref` and on its message words (R86, R138, R142). -/

namespace Sys2Proof.Proofs
open Sys2Proof Sys2Proof.Machine Sys2Proof.Machine.Reference

/-- Settles O27: both accept the accepted packets only (`parse_eq_accept_iff`, `parseRef_stringOf`). -/
theorem parseAgreesWithParseRef : Obligations.ParseAgreesWithParseRef := by
  intro P
  rw [parseRef_stringOf]
  refine ⟨fun m h => ?_, fun r h => if_neg fun hacc => ?_⟩
  · obtain ⟨hacc, rfl⟩ := (parse_eq_accept_iff P m).1 h
    exact if_pos hacc
  · cases h.symm.trans ((parse_eq_accept_iff P _).2 ⟨hacc, rfl⟩)

/-- Settles O28: unpacking and packing are inverse on packets (`packetOf_unpack`) and on message words (`mkMsg_of_fields`). -/
theorem parseIsBijective : Obligations.ParseIsBijective := by
  refine ⟨fun P m h => ⟨((parse_eq_accept_iff P m).1 h).1, validMsgWord_of_parse h⟩, fun m hm P => ⟨fun h => ?_, ?_⟩⟩
  · obtain ⟨hacc, rfl⟩ := (parse_eq_accept_iff P m).1 h
    obtain ⟨hconst0, hconst1, -, -⟩ := (acceptedPacket_iff P).1 hacc
    obtain ⟨hid, hbattery, hchannel, htemperature, hhumidity⟩ := mkMsg_fields (unpack P).id (unpack P).batteryOk
      (unpack P).channelRaw (unpack P).temperatureRaw (unpack P).humidity
    rw [msgOf, hid, hbattery, hchannel, htemperature, hhumidity, BitVec.add_sub_cancel, ← hconst0, ← hconst1, packetOf_unpack]
  · rintro rfl
    obtain ⟨hch, hh⟩ := (validMsgWord_iff m).1 hm
    have hraw : ∀ c : BitVec 2, c ≠ 0 → (c - 1).toNat ≤ 2 := by decide
    rw [parse_packetOf (hraw _ hch) hh, mkMsg_of_fields]

/-- Settles O29: the message determines the five fields, and these the word (`mkMsg_of_fields`). -/
theorem messagesEqualExactlyWhenWordsAre : Obligations.MessagesEqualExactlyWhenWordsAre := fun _ _ => denote_injective.eq_iff

end Sys2Proof.Proofs
end

section
/-! PROOFS. `decode_ref` (R108): what one sample does to it, how the registers of PD follow it (R112), what a written frame does to it
(R93, R111), and how many samples its packets cost (R57). -/

namespace Sys2Proof.Machine.Reference

/-! One sample, band by band of `count` -/

section
variable {r : Scan}

theorem scanSample_false (r : Scan) : scanSample r false = { r with count := r.count + 1 } := rfl

theorem scanSample_true_of_noGap (h : r.count = 0) : scanSample r true = r := by
  cases r
  simp_all [scanSample]

theorem scanSample_true_of_shortGap (h1 : 1 ≤ r.count) (h4 : r.count ≤ 4) :
    scanSample r true = { r with count := 0, bits := r.bits ++ [false] } := by
  have h10 : ¬ r.count > 10 := by omega
  have h5 : ¬ r.count ≥ 5 := by omega
  simp [scanSample, h10, h5, h1]

theorem scanSample_true_of_longGap (h5 : 5 ≤ r.count) (h10 : r.count ≤ 10) :
    scanSample r true = { r with count := 0, bits := r.bits ++ [true] } := by
  simp [scanSample, h5, Nat.not_lt.2 h10]

theorem scanSample_true_of_syncGap (h11 : 11 ≤ r.count) : scanSample r true =
    { count := 0, bits := [], out := if r.bits.length = 36 then r.out ++ [r.bits] else r.out } := by
  have h10 : r.count > 10 := h11
  simp [scanSample, h10]

end

theorem scan_concat (ss : List Bool) (s : Bool) : scan (ss ++ [s]) = scanSample (scan ss) s := by
  simp [scan]

theorem numeral_lt (s : List Bool) : numeral s < 2 ^ s.length := by
  induction s using List.reverseRecOn with
  | nil => decide
  | append_singleton s b ih =>
    have hbit : b.toNat ≤ 1 := Bool.toNat_le b
    rw [numeral_concat, List.length_append, List.length_singleton, Nat.pow_succ']
    omega

end Sys2Proof.Machine.Reference

namespace Sys2Proof.Machine
open Sys2Proof.Machine.Reference

/-! The registers of PD follow `decode_ref` (R112) -/

/-- `CNT`, `LEN` and `BUF` hold what the variables of `decode_ref` hold, as far as their widths reach. -/
def Tracks (a : Arch) (r : Scan) : Prop :=
  a.cnt.toNat = min r.count 11 ∧ a.len.toNat = min r.bits.length 37 ∧ (r.bits.length ≤ 36 → a.buf.toNat = numeral r.bits)

theorem tracks_empty {a : Arch} (hcnt : a.cnt = 0) (hbuf : a.buf = 0) (hlen : a.len = 0) (out : List (List Bool)) :
    Tracks a ⟨0, [], out⟩ := by
  simp [Tracks, hcnt, hbuf, hlen, numeral]

theorem Tracks.append {a : Arch} {r : Scan} (h : Tracks a r) (b : Bool) :
    Tracks { append b a with cnt := 0 } { r with count := 0, bits := r.bits ++ [b] } := by
  obtain ⟨-, hlen, hbuf⟩ := h
  refine ⟨rfl, ?_, fun hshort => ?_⟩
  · show (Machine.append b a).len.toNat = _
    rw [append_len_toNat, hlen, List.length_append, List.length_singleton]
    omega
  · show (Machine.append b a).buf.toNat = _
    rw [List.length_append, List.length_singleton] at hshort
    have hlt : numeral (r.bits ++ [b]) < 2 ^ 36 :=
      (numeral_lt _).trans_le (Nat.pow_le_pow_right (by decide) (by simpa using hshort))
    rw [append_buf_toNat, hbuf (by omega), ← numeral_concat, Nat.mod_eq_of_lt hlt]

/-- A full buffer is the vector of the string. -/
theorem Tracks.vectorOf_bits {a : Arch} {r : Scan} (h : Tracks a r) (hfull : r.bits.length = 36) : vectorOf r.bits = a.buf := by
  obtain ⟨-, -, hbuf⟩ := h
  rw [vectorOf, ← hbuf hfull.le, BitVec.ofNat_toNat, BitVec.setWidth_eq]

/-- The packet that a sample step returns is the one string that `decode_ref` yields for the sample, or neither is. -/
def Yields (P : Option Packet) (r r' : Scan) : Prop :=
  (P = none ∧ r'.out = r.out) ∨ (P = some (vectorOf r.bits) ∧ r.bits.length = 36 ∧ r'.out = r.out ++ [r.bits])

theorem Tracks.sampleStep {a : Arch} {r : Scan} (h : Tracks a r) (s : Bool) :
    Tracks (sampleStep s a).1 (scanSample r s) ∧ Yields (sampleStep s a).2 r (scanSample r s) := by
  have ⟨hcnt, hlen, hbuf⟩ := h
  obtain ⟨rfl, e⟩ | ⟨rfl, h0, e⟩ | ⟨rfl, h1, h4, e⟩ | ⟨rfl, h5, h10, e⟩ | ⟨rfl, h11, e⟩ := sampleStep_cases s a <;> rw [e]
  · refine ⟨⟨?_, hlen, hbuf⟩, .inl ⟨rfl, rfl⟩⟩
    rw [pdZero_cnt_toNat, hcnt]
    show _ = min (r.count + 1) 11
    omega
  · rw [scanSample_true_of_noGap (by omega), pdNoise_eq_self (BitVec.eq_of_toNat_eq h0)]
    exact ⟨h, .inl ⟨rfl, rfl⟩⟩
  · rw [scanSample_true_of_shortGap (by omega) (by omega)]
    exact ⟨h.append false, .inl ⟨rfl, rfl⟩⟩
  · rw [scanSample_true_of_longGap (by omega) (by omega)]
    exact ⟨h.append true, .inl ⟨rfl, rfl⟩⟩
  · rw [scanSample_true_of_syncGap (by omega)]
    refine ⟨tracks_empty rfl rfl rfl _, ?_⟩
    by_cases hfull : r.bits.length = 36
    · refine .inr ⟨?_, hfull, if_pos hfull⟩
      rw [h.vectorOf_bits hfull]
      exact syncPacket_of_len_eq (by omega)
    · exact .inl ⟨syncPacket_of_len_ne (by omega), if_neg hfull⟩

theorem runSamples_concat (ss : List Bool) (s : Bool) (a : Arch) : runSamples (ss ++ [s]) a =
    ((sampleStep s (runSamples ss a).1).1, (runSamples ss a).2 ++ (sampleStep s (runSamples ss a).1).2.toList) := by
  simp [runSamples]

theorem runSamples_tracks {a : Arch} (hcnt : a.cnt = 0) (hbuf : a.buf = 0) (hlen : a.len = 0) (ss : List Bool) :
    Tracks (runSamples ss a).1 (scan ss) ∧ (runSamples ss a).2 = (scan ss).out.map vectorOf ∧
      ∀ x ∈ (scan ss).out, x.length = 36 := by
  induction ss using List.reverseRecOn with
  | nil => exact ⟨tracks_empty hcnt hbuf hlen [], rfl, by simp [scan, Scan.start]⟩
  | append_singleton ss s ih =>
    obtain ⟨htracks, hpackets, hlength⟩ := ih
    obtain ⟨htracks', hyields⟩ := htracks.sampleStep s
    rw [runSamples_concat, scan_concat, hpackets]
    refine ⟨htracks', ?_⟩
    obtain ⟨hnone, hout⟩ | ⟨hsome, hfull, hout⟩ := hyields
    · simp only [hnone, hout]
      exact ⟨by simp, hlength⟩
    · simp only [hsome, hout]
      exact ⟨by simp, by simpa [or_imp, forall_and, hfull] using hlength⟩

end Sys2Proof.Machine

namespace Sys2Proof.Machine.Reference

/-! A written frame (R93) -/

theorem foldl_scanSample_zeros (n : Nat) (r : Scan) :
    (List.replicate n false).foldl scanSample r = { r with count := r.count + n } := by
  induction n generalizing r with
  | zero => rfl
  | succ n ih =>
    rw [List.replicate_succ, List.foldl_cons, ih, scanSample_false]
    simp only [Nat.add_assoc, Nat.add_comm 1 n]

/-- A gap in its band and a pulse append the bit that the band stands for. -/
theorem foldl_scanSample_bit {g0 g1 : Nat} (h01 : 1 ≤ g0) (h04 : g0 ≤ 4) (h15 : 5 ≤ g1) (h110 : g1 ≤ 10) {r : Scan}
    (hr : r.count = 0) (b : Bool) : (List.replicate (if b then g1 else g0) false ++ [true]).foldl scanSample r =
      { r with bits := r.bits ++ [b] } := by
  rw [List.foldl_append, foldl_scanSample_zeros, hr, Nat.zero_add, List.foldl_cons, List.foldl_nil]
  cases b with
  | false => rw [scanSample_true_of_shortGap h01 h04]
  | true => rw [scanSample_true_of_longGap h15 h110]

theorem foldl_scanSample_bits {g0 g1 : Nat} (h01 : 1 ≤ g0) (h04 : g0 ≤ 4) (h15 : 5 ≤ g1) (h110 : g1 ≤ 10) {r : Scan}
    (hr : r.count = 0) (bits : List Bool) :
    (bits.flatMap fun b => List.replicate (if b then g1 else g0) false ++ [true]).foldl scanSample r =
      { r with bits := r.bits ++ bits } := by
  induction bits generalizing r with
  | nil => simp
  | cons b bits ih =>
    rw [List.flatMap_cons, List.foldl_append, foldl_scanSample_bit h01 h04 h15 h110 hr,
      ih (r := { r with bits := r.bits ++ [b] }) hr, List.append_assoc, List.singleton_append]

theorem scan_frame {bits : List Bool} {g0 g1 gs : Nat} (hbits : bits.length = 36) (h01 : 1 ≤ g0) (h04 : g0 ≤ 4) (h15 : 5 ≤ g1)
    (h110 : g1 ≤ 10) (hs : 11 ≤ gs) (lead : Bool) : scan (frame bits g0 g1 gs lead) = { count := 0, bits := [], out := [bits] } := by
  have hlead : (if lead then [true] else []).foldl scanSample Scan.start = Scan.start := by cases lead <;> rfl
  rw [scan, frame, List.foldl_append, List.foldl_append, List.foldl_append, hlead,
    foldl_scanSample_bits h01 h04 h15 h110 rfl, foldl_scanSample_zeros, List.foldl_cons, List.foldl_nil,
    scanSample_true_of_syncGap (show 11 ≤ 0 + gs by omega)]
  simp [Scan.start, hbits]

/-! What packets cost in samples (R57) -/

/-- The least number of samples that append these bits: a gap of 1 and a pulse for a 0, a gap of 5 and a pulse for a 1. -/
def cost (bits : List Bool) : Nat := 2 * bits.length + 4 * bits.count true

theorem cost_concat (bits : List Bool) (b : Bool) : cost (bits ++ [b]) = cost bits + if b then 6 else 2 := by
  cases b <;> simp [cost] <;> omega

/-- If each packet that counts costs at least `k` samples with its frame boundary of 12, the packets that count, the bits held and the
gap that runs have cost no more samples than there were. -/
theorem scan_cost_le {q : List Bool → Bool} {k : Nat} (hq : ∀ x, x.length = 36 → q x = true → k ≤ cost x + 12) (ss : List Bool) :
    k * (scan ss).out.countP q + cost (scan ss).bits + (scan ss).count ≤ ss.length := by
  induction ss using List.reverseRecOn with
  | nil => simp [scan, Scan.start, cost]
  | append_singleton ss s ih =>
    rw [scan_concat, List.length_append, List.length_singleton]
    generalize scan ss = r at ih
    cases s with
    | false => rw [scanSample_false]; simp only; omega
    | true =>
      obtain h | ⟨h1, h4⟩ | ⟨h5, h10⟩ | h11 :
          r.count = 0 ∨ (1 ≤ r.count ∧ r.count ≤ 4) ∨ (5 ≤ r.count ∧ r.count ≤ 10) ∨ 11 ≤ r.count := by omega
      · rw [scanSample_true_of_noGap h]; omega
      · rw [scanSample_true_of_shortGap h1 h4]; simp only [cost_concat]; simp; omega
      · rw [scanSample_true_of_longGap h5 h10]; simp only [cost_concat]; simp; omega
      · rw [scanSample_true_of_syncGap h11]
        have hnil : cost [] = 0 := rfl
        simp only [hnil]
        split
        · next hfull =>
          have hstep : k * (r.out ++ [r.bits]).countP q ≤ k * r.out.countP q + (cost r.bits + 12) := by
            rw [List.countP_append, List.countP_singleton, Nat.mul_add]
            split
            · next hr => have := hq r.bits hfull hr; omega
            · omega
          omega
        · omega

theorem windowSamples_length (bytes : List Byte) : (windowSamples bytes).length = 8 * bytes.length := by
  induction bytes with
  | nil => rfl
  | cons d ds ih => rw [windowSamples, List.flatMap_cons, List.length_append, ← windowSamples, ih]; simp; omega

/-- A packet that parses has its four bits of `const1` set. -/
theorem four_le_count_of_parseRef {x : List Bool} (hlength : x.length = 36) (h : (parseRef x).isSome = true) :
    4 ≤ x.count true := by
  have hconst1 : numeral (slice x 24 4) = 15 := by
    by_contra hne
    simp [parseRef, hne] at h
  have hfour : ∀ a b c d : Bool, numeral [a, b, c, d] = 15 → [a, b, c, d].count true = 4 := by decide
  have hslice : (slice x 24 4).length = 4 := by simp [slice, hlength]
  have hsub : (slice x 24 4).Sublist x := (List.take_sublist _ _).trans (List.drop_sublist _ _)
  obtain ⟨a, b, c, d, habcd⟩ := List.length_eq_four.1 hslice
  rw [habcd] at hconst1 hsub
  exact (hfour a b c d hconst1).ge.trans (hsub.count_le true)

theorem decodeRef_length_le (bytes : List Byte) : (decodeRef bytes).length ≤ 8 * bytes.length / 84 := by
  have h := scan_cost_le (q := fun _ => true) (k := 84) (fun x hx _ => by rw [cost, hx]; omega) (windowSamples bytes)
  rw [windowSamples_length, List.countP_true] at h
  rw [Nat.le_div_iff_mul_le (by decide), decodeRef]
  omega

theorem windowMessages_length_le (bytes : List Byte) : (windowMessages bytes).length ≤ 8 * bytes.length / 100 := by
  have h := scan_cost_le (q := fun x => (parseRef x).isSome) (k := 100)
    (fun x hx hp => by have := four_le_count_of_parseRef hx hp; rw [cost, hx]; omega) (windowSamples bytes)
  rw [windowSamples_length] at h
  rw [Nat.le_div_iff_mul_le (by decide), windowMessages, List.length_filterMap_eq_countP, decodeRef]
  omega

end Sys2Proof.Machine.Reference
end

section
/-! PROOFS. The obligations on `decode_ref` (R57, R93, R112). -/

namespace Sys2Proof.Proofs
open Sys2Proof Sys2Proof.Machine Sys2Proof.Machine.Reference

/-- Settles O18: `Tracks` holds at the start and is kept by every sample, which yields the same packet on both sides. -/
theorem registersAgreeWithDecodeRef : Obligations.RegistersAgreeWithDecodeRef := by
  intro ss a hcnt hbuf hlen
  obtain ⟨⟨hcnt', hlen', hbuf'⟩, hpackets, hlength⟩ := runSamples_tracks hcnt hbuf hlen ss
  exact ⟨hpackets, hlength, hcnt', hlen', hbuf'⟩

/-- Settles O19: each gap with its pulse appends its bit, and the last one is a frame boundary with 36 bits (`scan_frame`). -/
theorem frameDecodesToItsBits : Obligations.FrameDecodesToItsBits := by
  intro bits g0 g1 gs lead hbits h01 h04 h15 h110 hs
  rw [scan_frame hbits h01 h04 h15 h110 hs]

/-- Settles O20: a packet costs 36 bits of two samples and a frame boundary of 12, and one that parses four long gaps more. -/
theorem windowYieldsAreBounded : Obligations.WindowYieldsAreBounded := fun bytes =>
  ⟨decodeRef_length_le bytes, windowMessages_length_le bytes⟩

end Sys2Proof.Proofs
end

section
/-! PROOFS. Tallies in a row (R163): which capacity fault they can raise (R169), and their table and its selection against `vote_ref`
while they raise none (R172). -/

namespace Sys2Proof.Machine
open Sys2Proof.Config Sys2Proof.Machine.Reference

/-- The messages tallied one after the other. -/
def tallies (p : Params) (ms : List MsgWord) (a : Arch) : Arch := ms.foldl (fun x m => tally p m x) a

theorem tallies_cons (p : Params) (m : MsgWord) (ms : List MsgWord) (a : Arch) :
    tallies p (m :: ms) a = tallies p ms (tally p m a) := rfl

theorem tallies_concat (p : Params) (ms : List MsgWord) (m : MsgWord) (a : Arch) :
    tallies p (ms ++ [m]) a = tally p m (tallies p ms a) := by
  simp [tallies]

/-- The table does not depend on the flags set before. -/
theorem tallies_table_congr {a b : Arch} (h : a.table = b.table) (p : Params) (ms : List MsgWord) :
    (tallies p ms a).table = (tallies p ms b).table := by
  induction ms generalizing a b with
  | nil => exact h
  | cons m ms ih =>
    rw [tallies_cons, tallies_cons]
    exact ih (by rw [tally_eq, tally_eq, h])

/-! The capacity faults -/

theorem withinDepth_mono {p : Params} {n k : Nat} (hk : k ≤ n) (h : withinDepth p n) : withinDepth p k :=
  fun d hd => hk.trans (h d hd)

theorem withinCount_mono {p : Params} {n k : Nat} (hk : k ≤ n) (h : withinCount p n) : withinCount p k :=
  fun w hw => hk.trans (h w hw)

/-- A flag that is not raised is as it was. -/
theorem tally_flag_eq {p : Params} {m : MsgWord} {a : Arch} {f : FaultFlag} (hfull : f = .fVtFull → ¬ TableFullFor p m a)
    (hsat : f = .fVtSat → ¬ CountFullFor p m a) : (tally p m a).flag f = a.flag f := by
  refine Bool.eq_iff_iff.2 ⟨fun h => ?_, fun h => tally_sticky h p m⟩
  obtain hset | ⟨hf, h⟩ | ⟨hf, h⟩ := tally_raises h
  · exact hset
  · exact absurd h (hfull hf)
  · exact absurd h (hsat hf)

theorem not_tableFullFor {p : Params} {a : Arch} (h : withinDepth p (a.vtN + 1)) (m : MsgWord) : ¬ TableFullFor p m a := by
  rintro ⟨⟨d, hd, hle⟩, -⟩
  have := h d hd
  omega

theorem not_countFullFor {p : Params} {a : Arch} {c : Nat} (hle : ∀ e ∈ a.table, e.cnt ≤ c) (h : withinCount p (c + 1))
    (m : MsgWord) : ¬ CountFullFor p m a := by
  rintro ⟨w, i, e, hw, hi, -, hcnt, -⟩
  have := hle e (List.mem_of_getElem? hi)
  have := h w hw
  omega

theorem tally_cnt_le {p : Params} {a : Arch} {c : Nat} (h : ∀ e ∈ a.table, e.cnt ≤ c) (m : MsgWord) :
    ∀ e ∈ (tally p m a).table, e.cnt ≤ c + 1 := by
  have hsucc : ∀ e ∈ a.table, e.cnt ≤ c + 1 := fun e he => (h e he).trans (Nat.le_succ c)
  obtain ⟨i, e, hi, -, -, ⟨-, ht⟩ | ⟨-, ht⟩⟩ | ⟨-, ⟨-, ht⟩ | ⟨-, ht⟩⟩ := tally_cases p m a <;> rw [ht] <;> intro x hx
  · exact hsucc x hx
  · obtain hx | rfl := List.mem_or_eq_of_mem_set hx
    · exact hsucc x hx
    · exact Nat.succ_le_succ (h e (List.mem_of_getElem? hi))
  · obtain hx | hx := List.mem_append.1 hx
    · exact hsucc x hx
    · obtain rfl := List.mem_singleton.1 hx
      exact Nat.le_add_left 1 c
  · exact hsucc x hx

/-- With room for every message as a new entry, the table does not overflow. -/
theorem tallies_flag_fVtFull {p : Params} {ms : List MsgWord} {a : Arch} (h : withinDepth p (a.vtN + ms.length)) :
    (tallies p ms a).flag .fVtFull = a.flag .fVtFull := by
  induction ms generalizing a with
  | nil => rfl
  | cons m ms ih =>
    rw [List.length_cons] at h
    have hgrow := tally_vtN_le p m a
    rw [tallies_cons, ih (withinDepth_mono (by omega) h)]
    exact tally_flag_eq (fun _ => not_tableFullFor (withinDepth_mono (by omega) h) m) nofun

/-- With room for every message in every count, no count saturates. -/
theorem tallies_flag_fVtSat {p : Params} {ms : List MsgWord} {a : Arch} {c : Nat} (hle : ∀ e ∈ a.table, e.cnt ≤ c)
    (h : withinCount p (c + ms.length)) : (tallies p ms a).flag .fVtSat = a.flag .fVtSat := by
  induction ms generalizing a c with
  | nil => rfl
  | cons m ms ih =>
    rw [List.length_cons] at h
    rw [tallies_cons, ih (tally_cnt_le hle m) (withinCount_mono (by omega) h)]
    exact tally_flag_eq nofun fun _ => not_countFullFor hle (withinCount_mono (by omega) h) m

theorem tallies_flag_fCmd (p : Params) (ms : List MsgWord) (a : Arch) : (tallies p ms a).flag .fCmd = a.flag .fCmd := by
  induction ms generalizing a with
  | nil => rfl
  | cons m ms ih => rw [tallies_cons, ih, tally_flag_fCmd]

theorem clean_iff (a : Arch) : a.clean = true ↔ ∀ f, a.flag f = false := by
  refine ⟨fun h f => ?_, fun h => by simp [Arch.clean, h]⟩
  rw [Arch.clean] at h
  cases f <;> simp_all

theorem clean_clearStatus (a : Arch) : a.clearStatus.clean = true :=
  (clean_iff _).2 (Arch.flag_eq_false_of_status rfl)

/-! The table and the selection against `vote_ref` -/

/-- An entry as the pair that `vote_ref` holds. -/
def Entry.pair (e : Entry) : MsgWord × Nat := (e.msg, e.cnt)

/-- Distinct messages: counting each entry of the message is counting the one at its place. -/
theorem map_countAgain {es : List Entry} (hnodup : (es.map Entry.msg).Nodup) {i : Nat} {e : Entry} (hi : es[i]? = some e) :
    (es.map Entry.pair).map (fun x => if x.1 = e.msg then (x.1, x.2 + 1) else x) =
      (es.set i ⟨e.msg, e.cnt + 1⟩).map Entry.pair := by
  obtain ⟨hlt, rfl⟩ := List.getElem?_eq_some_iff.1 hi
  refine List.ext_getElem (by simp) fun j hj _ => ?_
  have hjlt : j < es.length := by simpa using hj
  have hinj : es[j].msg = es[i].msg ↔ i = j := by
    have := hnodup.getElem_inj_iff (i := j) (hi := by simpa using hjlt) (j := i) (hj := by simpa using hlt)
    rw [List.getElem_map, List.getElem_map] at this
    exact this.trans eq_comm
  simp only [List.getElem_map, List.getElem_set, Entry.pair, hinj]
  split
  · next h => subst h; rfl
  · rfl

/-- A tally that leaves no flag set does to the table what `vote_ref` does (R163, R165). -/
theorem tally_table_of_clean {p : Params} {m : MsgWord} {a : Arch} (hnodup : (a.table.map Entry.msg).Nodup)
    (hclean : (tally p m a).clean = true) :
    (tally p m a).table.map Entry.pair = countMessage (a.table.map Entry.pair) m := by
  rw [clean_iff] at hclean
  obtain ⟨i, e, hi, rfl, -, ⟨-, ht⟩ | ⟨-, ht⟩⟩ | ⟨hnew, ⟨-, ht⟩ | ⟨-, ht⟩⟩ := tally_cases p m a <;> rw [ht] at hclean ⊢
  · have := hclean .fVtSat
    simp [raise_flag] at this
  · have hany : (a.table.map Entry.pair).any (fun x => x.1 = e.msg) = true := by
      simp only [List.any_map, List.any_eq_true, Function.comp_apply, decide_eq_true_eq]
      exact ⟨e, List.mem_of_getElem? hi, rfl⟩
    rw [countMessage, if_pos hany, map_countAgain hnodup hi]
  · have hany : ¬ (a.table.map Entry.pair).any (fun x => x.1 = m) = true := by
      simp only [List.any_map, List.any_eq_true, Function.comp_apply, decide_eq_true_eq]
      rintro ⟨e, he, hm⟩
      exact hnew e he hm
    rw [countMessage, if_neg hany, List.map_append]
    rfl
  · have := hclean .fVtFull
    simp [raise_flag] at this

theorem tallies_nodup {a : Arch} (h : (a.table.map Entry.msg).Nodup) (p : Params) (ms : List MsgWord) :
    ((tallies p ms a).table.map Entry.msg).Nodup := by
  induction ms generalizing a with
  | nil => exact h
  | cons m ms ih => exact ih (tally_nodup h p m)

theorem tallies_table_of_clean {p : Params} {ms : List MsgWord} {a : Arch} (hempty : a.table = [])
    (hclean : (tallies p ms a).clean = true) : (tallies p ms a).table.map Entry.pair = voteTable ms := by
  induction ms using List.reverseRecOn with
  | nil => simp [tallies, voteTable, hempty]
  | append_singleton ms m ih =>
    have hnodup := tallies_nodup (a := a) (by simp [hempty]) p ms
    rw [tallies_concat] at hclean ⊢
    have hbefore : (tallies p ms a).clean = true := by
      rw [clean_iff] at hclean ⊢
      intro f
      by_contra hset
      have := hclean f
      rw [tally_sticky (by simpa using hset)] at this
      cases this
    rw [tally_table_of_clean hnodup hclean, ih hbefore, voteTable_concat]

/-- The selection of the voter is the choice of `vote_ref` (R164, R165). -/
theorem select_pair (es : List Entry) : (select es).map Entry.pair = bestOf (es.map Entry.pair) := by
  cases es with
  | nil => rfl
  | cons e es =>
    have hbetter : ∀ b x : Entry, (better b x).pair = if x.pair.2 > b.pair.2 then x.pair else b.pair := by
      intro b x
      rw [better, apply_ite Entry.pair]
      rfl
    have hfold : (es.foldl better e).pair =
        (es.map Entry.pair).foldl (fun best x => if x.2 > best.2 then x else best) e.pair := by
      induction es generalizing e with
      | nil => rfl
      | cons x xs ih => rw [List.foldl_cons, ih, List.map_cons, List.foldl_cons, hbetter]
    exact congrArg some hfold

/-- From an empty table, tallies that raise no flag leave the table of `vote_ref`, whatever flags were set before. -/
theorem tallies_agree_voteRef {p : Params} {ms : List MsgWord} {a : Arch} (hempty : a.table = [])
    (hclean : (tallies p ms a.clearStatus).clean = true) :
    (tallies p ms a).table.map Entry.pair = voteTable ms ∧
      (select (tallies p ms a).table).map Entry.pair = voteRef ms := by
  have htable : (tallies p ms a).table.map Entry.pair = voteTable ms := by
    have hstart : a.table = a.clearStatus.table := rfl
    rw [tallies_table_congr hstart, tallies_table_of_clean (a := a.clearStatus) hempty hclean]
  exact ⟨htable, by rw [select_pair, htable, voteRef]⟩

end Sys2Proof.Machine
end

section
/-! PROOFS. The obligation on the agreement of the voter with `vote_ref` (R172). -/

namespace Sys2Proof.Proofs
open Sys2Proof Sys2Proof.Machine Sys2Proof.Machine.Reference

/-- Settles O34: the agreement is `tallies_agree_voteRef`; with both capacities sufficient no tally raises its flag. -/
theorem tallyAgreesWithVoteRef : Obligations.TallyAgreesWithVoteRef := by
  intro p ms a hempty _
  refine ⟨fun hclean => tallies_agree_voteRef hempty hclean, fun hdepth hcount => (clean_iff _).2 fun f => ?_⟩
  have hclear := (clean_iff _).1 (clean_clearStatus a)
  cases f with
  | fCmd => exact (tallies_flag_fCmd p ms _).trans (hclear _)
  | fVtFull =>
    refine (tallies_flag_fVtFull ?_).trans (hclear _)
    simpa [Arch.vtN, Arch.clearStatus, hempty] using hdepth
  | fVtSat =>
    refine (tallies_flag_fVtSat (c := 0) ?_ ?_).trans (hclear _)
    · simp [Arch.clearStatus, hempty]
    · simpa using hcount

end Sys2Proof.Proofs
end

section
/-! PROOFS. A window: the run of `BYTE` and `NOP` commands as one list of samples (R190, R192), the samples as the packets of PD and
the tallies of their messages (R195), and the `END` (R193). -/

namespace Sys2Proof.Machine
open Sys2Proof.Config Sys2Proof.Machine.Reference

/-! Samples in a row: the packets of PD, and what becomes of them behind PD -/

/-- The message of a packet, if `PP.PARSE` accepts it. -/
def acceptedMsg (P : Packet) : Option MsgWord := if acceptedPacket P = true then some (msgOf P) else none

theorem parse_cases_acceptedMsg (P : Packet) :
    (∃ m, parse P = .accept m ∧ acceptedMsg P = some m) ∨ ∃ r, parse P = .reject r ∧ acceptedMsg P = none := by
  cases h : parse P with
  | accept m =>
    obtain ⟨hacc, hm⟩ := (parse_eq_accept_iff P m).1 h
    exact .inl ⟨m, rfl, by rw [acceptedMsg, if_pos hacc, hm]⟩
  | reject r =>
    refine .inr ⟨r, rfl, if_neg fun hacc => ?_⟩
    cases h.symm.trans ((parse_eq_accept_iff P _).2 ⟨hacc, rfl⟩)

theorem onPacket_eq_tallies (p : Params) (P : Packet) (a : Arch) : onPacket p P a = tallies p (acceptedMsg P).toList a := by
  obtain ⟨m, hparse, hmsg⟩ | ⟨r, hparse, hmsg⟩ := parse_cases_acceptedMsg P <;> rw [hmsg]
  · exact onPacket_of_accept hparse p a
  · exact onPacket_of_reject hparse p a

theorem onPacket_withPd (p : Params) (P : Packet) (a b : Arch) : onPacket p P (a.withPd b) = (onPacket p P a).withPd b := by
  obtain ⟨m, hparse, -⟩ | ⟨r, hparse, -⟩ := parse_cases_acceptedMsg P
  · rw [onPacket_of_accept hparse, onPacket_of_accept hparse, tally_eq, tally_eq]
    rfl
  · rw [onPacket_of_reject hparse, onPacket_of_reject hparse]

/-- The event of a packet (R88, R195). -/
def packetEventOf (P : Packet) : PacketEvent := eventOf P (parse P)

theorem chainStep_withPd (p : Params) (a b : Arch) (evs : List PacketEvent) (s : Bool) : chainStep p (a.withPd b, evs) s =
    ((tallies p ((sampleStep s b).2.toList.filterMap acceptedMsg) a).withPd (sampleStep s b).1,
      evs ++ (sampleStep s b).2.toList.map packetEventOf) := by
  have hstep := sampleStep_withPd s a b
  cases hP : (sampleStep s b).2 with
  | none =>
    rw [hP] at hstep
    rw [chainStep_of_quiet hstep]
    simp [tallies]
  | some P =>
    rw [hP] at hstep
    rw [chainStep_of_emit hstep, onPacket_withPd, onPacket_eq_tallies]
    cases hm : acceptedMsg P <;> simp [hm, packetEventOf]

/-- The samples of a `BYTE` or of a window: PD alone gives the packets (`runSamples`); each makes its event, and the messages of the
accepted ones are tallied in order. -/
theorem feedSamples_eq (p : Params) (ss : List Bool) (a : Arch) : feedSamples p ss a =
    ((tallies p ((runSamples ss a).2.filterMap acceptedMsg) a).withPd (runSamples ss a).1,
      (runSamples ss a).2.map packetEventOf) := by
  induction ss using List.reverseRecOn with
  | nil => rfl
  | append_singleton ss s ih =>
    rw [feedSamples] at ih ⊢
    rw [List.foldl_append, ih, List.foldl_cons, List.foldl_nil, chainStep_withPd, runSamples_concat]
    simp [tallies]

theorem chainStep_events_append (p : Params) (a : Arch) (evs evs' : List PacketEvent) (s : Bool) :
    chainStep p (a, evs ++ evs') s = ((chainStep p (a, evs') s).1, evs ++ (chainStep p (a, evs') s).2) := by
  cases hP : (sampleStep s a).2 with
  | none => rw [chainStep_of_quiet (Prod.ext rfl hP), chainStep_of_quiet (Prod.ext rfl hP)]
  | some P => rw [chainStep_of_emit (Prod.ext rfl hP), chainStep_of_emit (Prod.ext rfl hP), List.append_assoc]

/-- The events that were there stay in front. -/
theorem foldl_chainStep_eq (p : Params) (ss : List Bool) (a : Arch) (evs : List PacketEvent) :
    ss.foldl (chainStep p) (a, evs) = ((feedSamples p ss a).1, evs ++ (feedSamples p ss a).2) := by
  unfold feedSamples
  induction ss using List.reverseRecOn with
  | nil => simp
  | append_singleton ss s ih =>
    rw [List.foldl_append, List.foldl_append, ih, List.foldl_cons, List.foldl_nil, chainStep_events_append]
    rfl

theorem feedSamples_append (p : Params) (ss ss' : List Bool) (a : Arch) : feedSamples p (ss ++ ss') a =
    ((feedSamples p ss' (feedSamples p ss a).1).1, (feedSamples p ss a).2 ++ (feedSamples p ss' (feedSamples p ss a).1).2) := by
  rw [feedSamples, List.foldl_append, foldl_chainStep_eq]
  rfl

/-! The run of a window's commands -/

/-- The commands of a window before its `END`: `BYTE` and `NOP`. -/
def IsFeed (w : CmdWord) : Prop := cmdCode w = 0b00#2 ∨ cmdCode w = 0b01#2

theorem windowSamples_cons (d : Byte) (ds : List Byte) : windowSamples (d :: ds) = samples d ++ windowSamples ds := rfl

theorem dataBytes_cons_of_byte {w : CmdWord} (h : cmdCode w = 0b01#2) (ws : List CmdWord) :
    dataBytes (w :: ws) = w.extractLsb' 0 8 :: dataBytes ws := by
  simp [dataBytes, h]

theorem dataBytes_cons_of_nop {w : CmdWord} (h : cmdCode w = 0b00#2) (ws : List CmdWord) :
    dataBytes (w :: ws) = dataBytes ws := by
  simp [dataBytes, h]

theorem runCommands_cons {w : CmdWord} {s t : State} (h : exec (decodeCW w) s = .next t) (ws : List CmdWord) :
    runCommands (w :: ws) s = (runCommands ws t).map fun r => (r.1, t.ev ++ r.2) := by
  have hstep : step { s with pending := .command w :: s.pending } = .next t := (step_of_command rfl).trans h
  rw [runCommands, hstep]

theorem runCommands_append {ws : List CmdWord} {s t : State} {evs : List PacketEvent} (h : runCommands ws s = some (t, evs))
    (vs : List CmdWord) : runCommands (ws ++ vs) s = (runCommands vs t).map fun r => (r.1, evs ++ r.2) := by
  induction ws generalizing s evs with
  | nil =>
    cases h
    simp
  | cons w ws ih =>
    obtain ⟨u, hu⟩ := exec_decodeCW_runs w s
    rw [runCommands_cons hu] at h
    obtain ⟨⟨t', evs'⟩, hrest, heq⟩ := Option.map_eq_some_iff.1 h
    cases heq
    rw [List.cons_append, runCommands_cons hu, ih hrest, Option.map_map]
    simp [Function.comp_def]

/-- A run of `BYTE` and `NOP` commands feeds the samples of its data bytes. -/
theorem runCommands_feed {ws : List CmdWord} (hws : ∀ w ∈ ws, IsFeed w) (s : State) :
    ∃ t, runCommands ws s = some (t, (feedSamples s.params (windowSamples (dataBytes ws)) s.arch).2) ∧
      t.arch = (feedSamples s.params (windowSamples (dataBytes ws)) s.arch).1 ∧ t.params = s.params := by
  induction ws generalizing s with
  | nil => exact ⟨s, rfl, rfl, rfl⟩
  | cons w ws ih =>
    obtain ⟨hw, hrest⟩ := List.forall_mem_cons.1 hws
    obtain hcode | hcode := hw
    · have hexec : exec (decodeCW w) s = _ := (congrArg (exec · s) (decodeCW_of_cmdCode hcode)).trans (exec_nop _ s)
      obtain ⟨t, hrun, harch, hparams⟩ := ih hrest (s.done s.arch [] .none)
      rw [State.done_arch, State.done_params] at hrun harch
      rw [runCommands_cons hexec, hrun, dataBytes_cons_of_nop hcode]
      exact ⟨t, rfl, harch, hparams⟩
    · have hexec : exec (decodeCW w) s = _ := (congrArg (exec · s) (decodeCW_of_cmdCode hcode)).trans (exec_byte _ s)
      obtain ⟨t, hrun, harch, hparams⟩ := ih hrest _
      rw [runCommands_cons hexec, hrun, dataBytes_cons_of_byte hcode, windowSamples_cons, feedSamples_append]
      exact ⟨t, rfl, harch, hparams⟩

/-- The same run with the `END` of the window behind it. -/
theorem runCommands_feed_end {ws : List CmdWord} (hws : ∀ w ∈ ws, IsFeed w) (data : Byte) (s : State) :
    ∃ t, runCommands (ws ++ [0b10#2 ++ data]) s =
        some (t, (feedSamples s.params (windowSamples (dataBytes ws)) s.arch).2) ∧
      t.arch = endWindow (feedSamples s.params (windowSamples (dataBytes ws)) s.arch).1 := by
  obtain ⟨t, hrun, harch, -⟩ := runCommands_feed hws s
  have hexec : exec (decodeCW (0b10#2 ++ data)) t = _ := (congrArg (exec · t) (decodeCW_append 2 data)).trans (exec_endCmd data t)
  refine ⟨t.done (endWindow t.arch) [] .none, ?_, by rw [State.done_arch, harch]⟩
  rw [runCommands_append hrun, runCommands_cons hexec]
  simp [runCommands]

end Sys2Proof.Machine
end

section
/-! PROOFS. A window against the reference functions: its packets are those of `decode_ref`, its events carry the messages of the window
(R198), its result is that of `window_ref` (R199); and the zero bytes before an `END` (R55). -/

namespace Sys2Proof.Machine.Reference

/-! Strings and vectors of 36 bits -/

theorem numeral_testBit (s : List Bool) (k : Nat) : (numeral s).testBit k = s.reverse.getD k false := by
  induction s using List.reverseRecOn generalizing k with
  | nil => simp [numeral]
  | append_singleton s b ih =>
    rw [numeral_concat, List.reverse_append, List.reverse_singleton, List.singleton_append]
    cases k with
    | zero => cases b <;> simp [Nat.testBit_zero]
    | succ k =>
      have hhalf : (2 * numeral s + b.toNat) / 2 = numeral s := by
        have := Bool.toNat_le b
        omega
      rw [Nat.testBit_succ, hhalf, ih, List.getD_cons_succ]

theorem stringOf_vectorOf {x : List Bool} (h : x.length = 36) : stringOf (vectorOf x) = x := by
  refine List.ext_getElem (by simp [stringOf, h]) fun i _ hi => ?_
  have hrev : 35 - i < x.reverse.length := by rw [List.length_reverse]; omega
  have hidx : x.length - 1 - (35 - i) = i := by omega
  have hwidth : decide (35 - i < 36) = true := by simp; omega
  simp only [stringOf, List.getElem_map, List.getElem_range, vectorOf, BitVec.getLsbD_ofNat, hwidth, Bool.true_and,
    numeral_testBit, List.getD_eq_getElem _ _ hrev, List.getElem_reverse, hidx]

/-! A vote on message words and on the messages they denote -/

theorem bestOf_map_fst {α β : Type} (f : α → β) (t : List (α × Nat)) : bestOf (t.map (Prod.map f id)) = (bestOf t).map (Prod.map f id) := by
  induction t using List.reverseRecOn with
  | nil => rfl
  | append_singleton t x ih =>
    rw [List.map_append, List.map_singleton, bestOf_concat, bestOf_concat, ih]
    cases bestOf t with
    | none => rfl
    | some best =>
      by_cases hgt : x.2 > best.2 <;> simp [hgt]

section
variable {α β : Type} [DecidableEq α] [DecidableEq β] {f : α → β}

theorem countMessage_map (hf : Function.Injective f) (t : List (α × Nat)) (m : α) :
    countMessage (t.map (Prod.map f id)) (f m) = (countMessage t m).map (Prod.map f id) := by
  have hany : (t.map (Prod.map f id)).any (fun e => e.1 = f m) = t.any (fun e => e.1 = m) := by
    simp [List.any_map, Function.comp_def, hf.eq_iff]
  rw [countMessage, countMessage, hany]
  split
  · rw [List.map_map, List.map_map]
    refine List.map_congr_left fun e _ => ?_
    by_cases h : e.1 = m <;> simp [h, hf.eq_iff]
  · simp

theorem voteTable_map (hf : Function.Injective f) (ms : List α) :
    voteTable (ms.map f) = (voteTable ms).map (Prod.map f id) := by
  induction ms using List.reverseRecOn with
  | nil => rfl
  | append_singleton ms m ih =>
    rw [List.map_append, List.map_singleton, voteTable_concat, voteTable_concat, ih, countMessage_map hf]

theorem voteRef_map (hf : Function.Injective f) (ms : List α) : voteRef (ms.map f) = (voteRef ms).map (Prod.map f id) := by
  rw [voteRef, voteRef, voteTable_map hf, bestOf_map_fst f]

end

theorem mem_of_voteRef {α : Type} [DecidableEq α] {ms : List α} {m : α} {c : Nat} (h : voteRef ms = some (m, c)) : m ∈ ms := by
  rw [voteRef_eq] at h
  obtain ⟨w, hw, heq⟩ := Option.map_eq_some_iff.1 h
  cases heq
  exact List.argmax_mem hw

end Sys2Proof.Machine.Reference

namespace Sys2Proof.Machine
open Sys2Proof.Config Sys2Proof.Machine.Reference

/-! The packets of a window, their events and their messages -/

theorem parseRef_eq_acceptedMsg {x : List Bool} (h : x.length = 36) : parseRef x = (acceptedMsg (vectorOf x)).map denote := by
  conv_lhs => rw [← stringOf_vectorOf h, parseRef_stringOf]
  rw [acceptedMsg]
  split <;> rfl

theorem evPacket_packetEventOf (P : Packet) : evPacket (packetEventOf P) = P := by
  rw [packetEventOf]
  cases parse P with
  | accept m =>
    obtain ⟨-, -, -, hpacket⟩ := packetEvent_fields true 0 m P
    exact hpacket
  | reject r =>
    obtain ⟨-, -, -, hpacket⟩ := packetEvent_fields false r 0 P
    exact hpacket

/-- The event of a packet carries its message, if it has one. -/
theorem evMsg_of_ok_packetEventOf (P : Packet) :
    (if evOk (packetEventOf P) = true then some (evMsg (packetEventOf P)) else none) = acceptedMsg P := by
  obtain ⟨m, hparse, hmsg⟩ | ⟨r, hparse, hmsg⟩ := parse_cases_acceptedMsg P <;> rw [packetEventOf, hparse, hmsg, eventOf]
  · obtain ⟨hok, -, hm, -⟩ := packetEvent_fields true 0 m P
    rw [hok, hm, if_pos rfl]
  · obtain ⟨hok, -⟩ := packetEvent_fields false r 0 P
    rw [hok, if_neg Bool.false_ne_true]

theorem evMsg_of_accepted_events (Ps : List Packet) :
    ((Ps.map packetEventOf).filter evOk).map evMsg = Ps.filterMap acceptedMsg := by
  induction Ps with
  | nil => rfl
  | cons P Ps ih =>
    have hP := evMsg_of_ok_packetEventOf P
    rw [List.map_cons, List.filter_cons, List.filterMap_cons, ← hP]
    split
    · rw [List.map_cons, ih]
    · exact ih

/-- The packets of a window (R112), and the message words of those that parse. -/
def windowPackets (bytes : List Byte) : List Packet := (decodeRef bytes).map vectorOf

/-- The message words that a window brings to the voter. -/
def windowWords (bytes : List Byte) : List MsgWord := (windowPackets bytes).filterMap acceptedMsg

/-- Every packet string of a window has 36 characters (R109). -/
theorem length_of_mem_decodeRef {bytes : List Byte} {x : List Bool} (h : x ∈ decodeRef bytes) : x.length = 36 := by
  obtain ⟨-, -, hlength⟩ := runSamples_tracks (a := Arch.reset) rfl rfl rfl (windowSamples bytes)
  exact hlength x h

theorem denote_windowWords (bytes : List Byte) : (windowWords bytes).map denote = windowMessages bytes := by
  rw [windowWords, windowPackets, windowMessages, List.filterMap_map, List.map_filterMap]
  exact List.filterMap_congr fun x hx => (parseRef_eq_acceptedMsg (length_of_mem_decodeRef hx)).symm

theorem validMsgWord_of_mem_windowWords {bytes : List Byte} {m : MsgWord} (h : m ∈ windowWords bytes) :
    validMsgWord m = true := by
  obtain ⟨P, -, hP⟩ := List.mem_filterMap.1 h
  obtain ⟨m', hparse, hmsg⟩ | ⟨r, -, hmsg⟩ := parse_cases_acceptedMsg P <;> rw [hmsg] at hP <;> cases hP
  exact validMsgWord_of_parse hparse

/-- From the start of a window, samples make the events of the window's packets and tally its message words. -/
theorem feedSamples_of_atWindowStart {a : Arch} (h : a.atWindowStart) (p : Params) (bytes : List Byte) :
    feedSamples p (windowSamples bytes) a =
      ((tallies p (windowWords bytes) a).withPd (runSamples (windowSamples bytes) a).1,
        (windowPackets bytes).map packetEventOf) := by
  obtain ⟨hcnt, hbuf, hlen, -⟩ := h
  obtain ⟨-, hpackets, -⟩ := runSamples_tracks hcnt hbuf hlen (windowSamples bytes)
  rw [feedSamples_eq, hpackets]
  rfl

/-! The result of a window -/

/-- `END` reads PD registers in no case. -/
theorem endWindow_withPd (a b : Arch) : endWindow (a.withPd b) = endWindow a := rfl

theorem endWindow_clean (a : Arch) : (endWindow a).clean = a.clean := by
  simp only [Arch.clean, endWindow_flag]

/-- After a window that raises no flag, `END` publishes the result of `window_ref`. -/
theorem endWindow_agrees_windowRef {p : Params} {a : Arch} (hempty : a.table = []) (bytes : List Byte)
    (hclean : (tallies p (windowWords bytes) a.clearStatus).clean = true) :
    (windowRef bytes = none → (endWindow (tallies p (windowWords bytes) a)).resultValid = false) ∧
    ∀ m c, windowRef bytes = some (m, c) →
      (endWindow (tallies p (windowWords bytes) a)).resultValid = true ∧
      validMsgWord (endWindow (tallies p (windowWords bytes) a)).result = true ∧
      denote (endWindow (tallies p (windowWords bytes) a)).result = m ∧
      (endWindow (tallies p (windowWords bytes) a)).resultCnt = c := by
  obtain ⟨-, hvote⟩ := tallies_agree_voteRef hempty hclean
  have href : windowRef bytes =
      ((select (tallies p (windowWords bytes) a).table).map Entry.pair).map (Prod.map denote id) := by
    rw [windowRef, ← denote_windowWords, voteRef_map denote_injective, hvote]
  obtain ⟨e, hselect, hvalid, hresult, hcount⟩ | ⟨hselect, hvalid, -⟩ :=
    endWindow_result (tallies p (windowWords bytes) a) <;> rw [hselect] at href hvote
  · refine ⟨fun hnone => (by cases href.symm.trans hnone), fun m c hsome => ?_⟩
    cases href.symm.trans hsome
    have hmem : e.msg ∈ windowWords bytes := mem_of_voteRef hvote.symm
    rw [hresult, hcount]
    exact ⟨hvalid, validMsgWord_of_mem_windowWords hmem, rfl, rfl⟩
  · exact ⟨fun _ => hvalid, fun m c hsome => by cases href.symm.trans hsome⟩

/-! Zero bytes -/

theorem windowSamples_replicate_zero (n : Nat) : windowSamples (List.replicate n 0) = List.replicate (8 * n) false := by
  induction n with
  | zero => rfl
  | succ n ih =>
    have hsamples : samples 0 = List.replicate 8 false := by decide
    rw [List.replicate_succ, windowSamples_cons, ih, hsamples, List.replicate_append_replicate, Nat.mul_succ, Nat.add_comm]

/-- 0 samples only count: no packet, and no register but `CNT`. -/
theorem feedSamples_zeros (p : Params) (n : Nat) (a : Arch) :
    (feedSamples p (List.replicate n false) a).2 = [] ∧ pdFlush (feedSamples p (List.replicate n false) a).1 = pdFlush a := by
  unfold feedSamples
  induction n generalizing a with
  | zero => exact ⟨rfl, rfl⟩
  | succ n ih =>
    rw [List.replicate_succ, List.foldl_cons, chainStep_of_quiet (sampleStep_false a)]
    exact ih (pdZero a)

theorem endWindow_eq_of_pdFlush_eq {a b : Arch} (h : pdFlush a = pdFlush b) : endWindow a = endWindow b := by
  obtain ⟨htable, -⟩ := (pdFlush_eq_iff a b).1 h
  rw [endWindow, endWindow, h, htable]

theorem dataBytes_replicate (n : Nat) : dataBytes (List.replicate n 0x100#10) = List.replicate n 0 := by
  induction n with
  | zero => rfl
  | succ n ih => rw [List.replicate_succ, dataBytes_cons_of_byte rfl, ih]; rfl

end Sys2Proof.Machine
end

section
/-! PROOFS. The obligations on windows (R55, R169, R198, R199). -/

namespace Sys2Proof.Proofs
open Sys2Proof Sys2Proof.Machine Sys2Proof.Machine.Reference

/-- Settles O46: the zero bytes change `CNT` at most, which `END` flushes. -/
theorem zeroPaddingIsHarmless : Obligations.ZeroPaddingIsHarmless := by
  intro n s
  have hfeed : ∀ w ∈ List.replicate n 0x100#10, IsFeed w := fun w hw => .inr (by rw [List.eq_of_mem_replicate hw]; rfl)
  obtain ⟨t, hrun, harch⟩ := runCommands_feed_end hfeed 0 s
  obtain ⟨u, hend, hendArch⟩ := runCommands_feed_end (ws := []) (by simp) 0 s
  rw [dataBytes_replicate, windowSamples_replicate_zero] at hrun harch
  obtain ⟨hnone, hflush⟩ := feedSamples_zeros s.params (8 * n) s.arch
  exact ⟨t, u, _, hrun, hnone, hend, harch.trans ((endWindow_eq_of_pdFlush_eq hflush).trans hendArch.symm)⟩

/-- Settles O47: the run is one list of samples (`runCommands_feed`), whose packets are those of `decode_ref`; a packet is read off its
event, and so is its message. -/
theorem windowEventsAreTheReferencePackets : Obligations.WindowEventsAreTheReferencePackets := by
  intro ws s hws hstart
  obtain ⟨t, hrun, -⟩ := runCommands_feed hws s
  rw [feedSamples_of_atWindowStart hstart] at hrun
  refine ⟨t, _, hrun, ?_, ?_⟩
  · rw [List.map_map]
    exact List.map_id'' evPacket_packetEventOf _
  · rw [← denote_windowWords, windowWords, ← evMsg_of_accepted_events, List.map_map]
    rfl

/-- Settles O48: both runs tally the same message words and raise the same flags before `END`, which publishes the vote on them
(`endWindow_agrees_windowRef`). -/
theorem windowResultIsWindowRef : Obligations.WindowResultIsWindowRef := by
  intro ws data s hws hstart
  obtain ⟨t, hrun, harch⟩ := runCommands_feed_end hws data s
  obtain ⟨t₀, hrun₀, harch₀⟩ := runCommands_feed_end hws data { s with arch := s.arch.clearStatus }
  have hstart₀ : s.arch.clearStatus.atWindowStart := hstart
  rw [feedSamples_of_atWindowStart hstart, endWindow_withPd] at harch
  rw [feedSamples_of_atWindowStart hstart₀, endWindow_withPd] at harch₀
  refine ⟨t, _, t₀, _, hrun, hrun₀, harch ▸ endWindow_atWindowStart _, fun hclean => ?_⟩
  obtain ⟨-, -, -, hempty⟩ := hstart
  rw [harch₀, endWindow_clean] at hclean
  rw [harch]
  exact endWindow_agrees_windowRef hempty (dataBytes ws) hclean

/-- Settles O49: a window has no more message words than its length allows (`windowMessages_length_le`), and so many tallies
fit. -/
theorem shortWindowsRaiseNoCapacityFault : Obligations.ShortWindowsRaiseNoCapacityFault := by
  intro ws s hws hstart
  obtain ⟨t, hrun, harch, -⟩ := runCommands_feed hws s
  rw [feedSamples_of_atWindowStart hstart] at harch
  obtain ⟨-, -, -, hempty⟩ := hstart
  have hle : (windowWords (dataBytes ws)).length ≤ 8 * (dataBytes ws).length / 100 := by
    rw [← List.length_map denote, denote_windowWords]
    exact windowMessages_length_le (dataBytes ws)
  refine ⟨t, _, hrun, fun hdepth => ?_, fun hcount => ?_⟩ <;> rw [harch, Arch.withPd_flag]
  · refine tallies_flag_fVtFull (withinDepth_mono ?_ hdepth)
    simpa [Arch.vtN, hempty] using hle
  · refine tallies_flag_fVtSat (c := 0) (by simp [hempty]) (withinCount_mono ?_ hcount)
    simpa using hle

end Sys2Proof.Proofs
end
